-- ==== Sys2Proof/Word.lean ====
section
/-! DEFINITION. The word types of the block (spec 00_scope.md R6): what the spec treats as bits of a fixed width. -/

namespace Sys2Proof

/-- A byte, also a character: one 8-bit code (R6, D4). -/
abbrev Byte := BitVec 8

/-- The width of every register access, of `CTR` and of a command word (R5 `DATA_W`, `CTR_W`). -/
abbrev Word := BitVec 32

/-- A byte address of the register space (R5 `ADDR_W`, R50): 12 bits, so no wider address can be written down. -/
abbrev Addr := BitVec 12

end Sys2Proof
end

