-- ==== Sys2Proof/Config.lean ====
section
/-! DEFINITION. The parameters of the block (spec 00_scope.md R5). All are fixed constants: the block has no
configuration register (10_state.md R37) and the spec leaves no value open, so there is no free value here. -/

namespace Sys2Proof.Config

/-- `DIGITS`: minimum width of the output digit string, not runtime-configurable (R5). -/
def digits : Nat := 6

/-- `N_SEC`: capacity of the secret-text buffer. DESIGN CHOICE, log entry 14: the spec's own default (R5, D3). -/
def nSec : Nat := 256

/-- `N_KEY`: the longest key the decoder can produce, `floor (5 * N_SEC / 8)` (R5). -/
def nKey : Nat := 160

/-- `OUT_MAX`: the most characters an output can have (R5, R146). -/
def outMax : Nat := 10

/-- `DIGEST_LEN` (R5). -/
def digestLen : Nat := 20

/-- `MSG_LEN` (R5). -/
def msgLen : Nat := 8

/-- `BLOCK_LEN`: the block length of SHA-1 and HMAC in bytes (R5). -/
def blockLen : Nat := 64

/-- `ID_VALUE`: the value of the `ID` register, ASCII "MFA1" (R5, R21). -/
def idValue : Word := 0x4D464131#32

/-- `TIMESTEP`: the TOTP step in seconds, used by the host only (R5, R195). -/
def timeStep : Nat := 30

end Sys2Proof.Config
end

