-- ==== Sys2Proof/Syntax.lean ====
section
/-! DEFINITION. The block's instructions: one constructor per row of spec/opcode_table.json (30_encoding.md R72).
No command has an operand or an immediate (R74): every operand is a named register. -/

namespace Sys2Proof

/-- The seven commands (R72). -/
inductive Instr where
  /-- `B32DEC`: Base32 decode of the secret text (R93). -/
  | b32dec
  /-- `CTRSER`: counter serialisation (R110). -/
  | ctrser
  /-- `HMAC`: HMAC-SHA1 of the message under the decoded key (R121). -/
  | hmac
  /-- `DTRUNC`: dynamic truncation of the digest (R140). -/
  | dtrunc
  /-- `DECFMT`: decimal formatting of the truncated value (R142). -/
  | decfmt
  /-- `HOTP`: the composite operation (R160). -/
  | hotp
  /-- `CLR`: zeroisation (R163). -/
  | clr
  deriving DecidableEq, Repr

end Sys2Proof
end

