-- ==== Sys2Proof/WellFormed.lean ====
section
/-! DEFINITION. What a well-formed instruction and a well-formed command word are (spec 30_encoding.md R70, R72). -/

namespace Sys2Proof

/-- Well-formedness of an instruction as syntax. No command has a field, an operand or an immediate (R70, R74), so
there is nothing to check on any of the seven. -/
def Instr.wf : Instr → Bool
  | .b32dec => true
  | .ctrser => true
  | .hmac => true
  | .dtrunc => true
  | .decfmt => true
  | .hotp => true
  | .clr => true

/-- First check of a command word: the `mbz` field, bits 31:8, is zero (R70). -/
def wordMbzOk (w : Word) : Bool := w.extractLsb' 8 24 == 0#24

/-- Second check of a command word: the opcode, bits 7:0, is one of the seven of the opcode map (R72). -/
def wordOpcodeOk (w : Word) : Bool :=
  let op := (w.extractLsb' 0 8).toNat
  decide (1 ≤ op ∧ op ≤ 7)

/-- A word that encodes a defined command (R71). -/
def wordWf (w : Word) : Bool := wordMbzOk w && wordOpcodeOk w

end Sys2Proof
end

