-- ==== Sys2Proof/Decode.lean ====
section
/-! DEFINITION. Decoding and encoding of command words (spec 30_encoding.md R70 to R73, opcode_table.json). -/

namespace Sys2Proof

/-- Why a word is no defined command (R73). Both are executed alike, as the illegal command. -/
inductive DecodeReject where
  /-- Bits 31:8 are not zero (R70). -/
  | mbzNotZero
  /-- Bits 31:8 are zero and the opcode is not one of the seven (R72). -/
  | undefinedOpcode
  deriving DecidableEq, Repr

/-- The command an opcode selects (R72). -/
def decodeOpcode (op : Nat) : Option Instr :=
  match op with
  | 1 => some .b32dec
  | 2 => some .ctrser
  | 3 => some .hmac
  | 4 => some .dtrunc
  | 5 => some .decfmt
  | 6 => some .hotp
  | 7 => some .clr
  | _ => none

/-- Decoding, total on all 32-bit words (R71): exactly one defined command, or a rejection by name. -/
def decode (w : Word) : Except DecodeReject Instr :=
  if w.extractLsb' 8 24 = 0#24 then
    match decodeOpcode (w.extractLsb' 0 8).toNat with
    | some i => .ok i
    | none => .error .undefinedOpcode
  else .error .mbzNotZero

/-- The opcode of a command (R72). -/
def opcodeOf : Instr → Byte
  | .b32dec => 0x01#8
  | .ctrser => 0x02#8
  | .hmac => 0x03#8
  | .dtrunc => 0x04#8
  | .decfmt => 0x05#8
  | .hotp => 0x06#8
  | .clr => 0x07#8

/-- The command word of a command: 24 zero bits, then the opcode (R70). -/
def encode (i : Instr) : Word := 0#24 ++ opcodeOf i

/-- The host's question about a row of the opcode table: what the decoder reads from the `nbits` bits `w`, numbered
from the least significant; bits above `nbits` are zero. A command is one 32-bit word (R70), delivered as the data of
one write, so there is no byte order to lay out (20_memory.md R55). -/
def decodeTableWord (nbits w : Nat) : Option Instr :=
  match decode (BitVec.ofNat 32 (w % 2 ^ nbits)) with
  | .ok i => some i
  | .error _ => none

theorem decode_b32dec : decode 0x00000001#32 = .ok .b32dec := by decide
theorem decode_ctrser : decode 0x00000002#32 = .ok .ctrser := by decide
theorem decode_hmac : decode 0x00000003#32 = .ok .hmac := by decide
theorem decode_dtrunc : decode 0x00000004#32 = .ok .dtrunc := by decide
theorem decode_decfmt : decode 0x00000005#32 = .ok .decfmt := by decide
theorem decode_hotp : decode 0x00000006#32 = .ok .hotp := by decide
theorem decode_clr : decode 0x00000007#32 = .ok .clr := by decide

end Sys2Proof
end

