-- ==== Sys2Proof/Machine/Sha1.lean ====
section
/-! DEFINITION. SHA-1 as spec 41_hmac_sha1.md R111 to R118 writes it out (FIPS 180). Pure functions on byte
sequences; none of their intermediate values is state (10_state.md R36). -/

namespace Sys2Proof.Machine

/-- `be_bytes_n v`: the `n`-byte big-endian sequence of `v` (00_scope.md R6). -/
def beBytes : Nat → Nat → List Byte
  | 0, _ => []
  | n + 1, v => BitVec.ofNat 8 (v / 256 ^ n) :: beBytes n v

/-- `be32`: four bytes as one word, the first most significant (R6). -/
def be32 (b0 b1 b2 b3 : Byte) : Word := b0 ++ b1 ++ b2 ++ b3

/-- The number of zero bytes of the padding: the least `z` with `(len + 1 + z) % 64 = 56` (R111). -/
def sha1ZeroCount (len : Nat) : Nat := (119 - len % 64) % 64

/-- The padded message `B ‖ 0x80 ‖ Z ‖ be_bytes_8 (8 * L)` (R111). -/
def sha1Pad (b : List Byte) : List Byte :=
  b ++ 0x80#8 :: (List.replicate (sha1ZeroCount b.length) 0#8 ++ beBytes 8 (8 * b.length))

/-- The number of 64-byte blocks of the padded message (R111). -/
def sha1BlockCount (len : Nat) : Nat := (len + 8) / 64 + 1

/-- Bytes read as 32-bit words, most significant byte first (R112). -/
def wordsOf : List Byte → List Word
  | b0 :: b1 :: b2 :: b3 :: rest => be32 b0 b1 b2 b3 :: wordsOf rest
  | _ => []

/-- Five 32-bit words: the running hash `H0..H4`, and the working variables `a..e` (R113, R116). -/
structure Hash where
  a : Word
  b : Word
  c : Word
  d : Word
  e : Word
  deriving DecidableEq, Repr

/-- The initial hash value (R113). -/
def sha1Init : Hash :=
  ⟨0x67452301#32, 0xEFCDAB89#32, 0x98BADCFE#32, 0x10325476#32, 0xC3D2E1F0#32⟩

/-- One more schedule word, from those already made, newest first:
`W[t] = ROTL_1 (W[t-3] ^ W[t-8] ^ W[t-14] ^ W[t-16])` (R114). -/
def nextW (newest : List Word) : Word :=
  (newest.getD 2 0 ^^^ newest.getD 7 0 ^^^ newest.getD 13 0 ^^^ newest.getD 15 0).rotateLeft 1

/-- The schedule extended by `n` words, newest first (R114). -/
def extendW : Nat → List Word → List Word
  | 0, ws => ws
  | n + 1, ws => extendW n (nextW ws :: ws)

/-- The message schedule `W[0..79]` of a block of sixteen words (R114). -/
def schedule (block : List Word) : List Word := (extendW 64 block.reverse).reverse

/-- The round function `f_t` (R115): choose, parity, majority, parity. -/
def roundF (t : Nat) (x y z : Word) : Word :=
  if t < 20 then (x &&& y) ||| (~~~x &&& z)
  else if t < 40 then x ^^^ y ^^^ z
  else if t < 60 then (x &&& y) ||| (x &&& z) ||| (y &&& z)
  else x ^^^ y ^^^ z

/-- The round constant `K_t` (R115). -/
def roundK (t : Nat) : Word :=
  if t < 20 then 0x5A827999#32
  else if t < 40 then 0x6ED9EBA1#32
  else if t < 60 then 0x8F1BBCDC#32
  else 0xCA62C1D6#32

/-- One round of the compression (R116). -/
def sha1Round (t : Nat) (w : Word) (h : Hash) : Hash :=
  ⟨h.a.rotateLeft 5 + roundF t h.b h.c h.d + h.e + roundK t + w, h.a, h.b.rotateLeft 30, h.c, h.d⟩

/-- The rounds from `t` on, one for each remaining schedule word (R116). -/
def sha1Rounds : Nat → List Word → Hash → Hash
  | _, [], h => h
  | t, w :: ws, h => sha1Rounds (t + 1) ws (sha1Round t w h)

/-- Compression of one block of sixteen words into the running hash (R116). -/
def compress (h : Hash) (block : List Word) : Hash :=
  let v := sha1Rounds 0 (schedule block) h
  ⟨h.a + v.a, h.b + v.b, h.c + v.c, h.d + v.d, h.e + v.e⟩

/-- `n` blocks compressed in order (R117). -/
def sha1Blocks : Nat → List Word → Hash → Hash
  | 0, _, h => h
  | n + 1, ws, h => sha1Blocks n (ws.drop 16) (compress h (ws.take 16))

/-- The digest: the five words, each most significant byte first (R117). -/
def hashBytes (h : Hash) : List Byte :=
  beBytes 4 h.a.toNat ++ beBytes 4 h.b.toNat ++ beBytes 4 h.c.toNat ++ beBytes 4 h.d.toNat ++ beBytes 4 h.e.toNat

/-- `SHA1 B` (R118). -/
def sha1 (b : List Byte) : List Byte :=
  hashBytes (sha1Blocks (sha1BlockCount b.length) (wordsOf (sha1Pad b)) sha1Init)

/-- `K0`: the key, hashed first if longer than a block, then zero-filled to 64 bytes (R119, R120). -/
def hmacKeyBlock (k : List Byte) : List Byte :=
  let k1 := if Config.blockLen < k.length then sha1 k else k
  k1 ++ List.replicate (Config.blockLen - k1.length) 0#8

/-- `HMAC_SHA1 (K, M)` (R119). -/
def hmacSha1 (k m : List Byte) : List Byte :=
  let k0 := hmacKeyBlock k
  let inner := sha1 (k0.map (· ^^^ 0x36#8) ++ m)
  sha1 (k0.map (· ^^^ 0x5C#8) ++ inner)

end Sys2Proof.Machine
end

