-- ==== Sys2Proof/Machine/State.lean ====
section
/-! DEFINITION. The state of the block and of its host interface (spec 10_state.md R20 to R38, 20_memory.md R51 to
R53), the reasons a step can stop, and the state after reset. -/

namespace Sys2Proof.Machine

/-- Cause codes of a command failure (10_state.md R24). The reserved codes 7 to 15 are never produced and have no
constructor. -/
inductive Cause where
  /-- 0: the last command succeeded, or none has run since reset. -/
  | none
  /-- 1: the secret text is empty. -/
  | empty
  /-- 2: the number of pad characters is not a valid count. -/
  | padCount
  /-- 3: the pad characters are not all trailing. -/
  | padPlace
  /-- 4: a data symbol is not in the alphabet. -/
  | badChar
  /-- 5: `HMAC` without a decoded key. -/
  | noKey
  /-- 6: the command word is not a defined command. -/
  | badCmd
  deriving DecidableEq, Repr

/-- The registers of the address map (20_memory.md R51), each buffer element a register of its own (R55). -/
inductive Reg where
  | id
  | cmd
  | status
  | ctr
  | seclen
  | keylen
  | p
  | outlen
  | msg (i : Fin 8)
  | digest (i : Fin 20)
  | out (i : Fin 10)
  | key (i : Fin 160)
  | sec (i : Fin 256)
  deriving DecidableEq, Repr

/-- A host transaction (20_memory.md R52, R53): `size` is the access size in bytes, of which only 4 is supported
(R54 item 1). -/
inductive Transaction where
  /-- `RegRead(addr)`. -/
  | regRead (size : Nat) (addr : Addr)
  /-- `RegWrite(addr, v)`. -/
  | regWrite (size : Nat) (addr : Addr) (data : Word)
  deriving DecidableEq, Repr

/-- What the environment can do to the block in one step (00_scope.md R9): a transaction, or a reset, possibly in the
middle of a transaction that it cuts off (70_reset_and_hazards.md R210). -/
inductive Event where
  | transact (t : Transaction)
  | reset (during : Option Transaction)
  deriving DecidableEq, Repr

/-- The response to a transaction (20_memory.md R52 to R54). -/
inductive Response where
  /-- No transaction has been answered since reset. -/
  | none
  /-- `OK`, to a write. -/
  | ok
  /-- `(OK, data)`, to a read. -/
  | data (v : Word)
  /-- `ERROR`, an access error. -/
  | error
  deriving DecidableEq, Repr

/-- Reasons the machine stops with a fault: none. The spec has no trap, no fatal and no lock-up state, and its step is
total (60_exceptions.md R180): a command failure is reported in `STATUS`, an access error in the response. Nobody
raises a fault, so there is nothing safe or unsafe about one. -/
inductive Fault where
  deriving DecidableEq, Repr

/-- Reasons an instruction is refused. -/
inductive Refusal where
  /-- An instruction without a meaning. Raised by no arm of `exec`: every row of the opcode table has its meaning. Were
  it raised, it would be safe (the machine stops where the hardware goes on). -/
  | notModelled (mnemonic : String)
  deriving DecidableEq, Repr

/-- The state: every element of 10_state.md R20, then the model's two fields for the host's side of the interface. -/
structure State where
  /-- `STATUS.KEYV`, bit 0 (R23). -/
  keyv : Bool
  /-- `STATUS.ERR`, bit 1 (R23). -/
  err : Bool
  /-- `STATUS.CAUSE`, bits 7:4 (R23, R24). -/
  cause : Cause
  /-- `CTR`: the counter (R25). -/
  ctr : Word
  /-- `SECLEN`: number of valid characters of `SEC` (R26). -/
  seclen : BitVec 9
  /-- `SEC[0..255]`: the encoded-secret text (R27). -/
  sec : Vector Byte 256
  /-- `KEYLEN`: number of key bytes (R28). -/
  keylen : BitVec 8
  /-- `KEY[0..159]`: the decoded secret (R28). -/
  key : Vector Byte 160
  /-- `MSG[0..7]`: the message (R29). -/
  msg : Vector Byte 8
  /-- `DIGEST[0..19]`: the digest (R30). -/
  digest : Vector Byte 20
  /-- `P`: the truncated value (R31). -/
  p : BitVec 31
  /-- `OUTLEN`: number of output characters (R32). -/
  outlen : BitVec 4
  /-- `OUT[0..9]`: the output digit string (R32). -/
  out : Vector Byte 10
  /-- The events the host and the environment have still to deliver, oldest first. DESIGN CHOICE, log entry 1. -/
  pending : List Event
  /-- The response to the last event. DESIGN CHOICE, log entry 2. -/
  resp : Response
  deriving DecidableEq, Repr

/-- The state after reset: every element of the block zero (10_state.md R38), nothing pending, nothing answered. -/
def State.reset : State where
  keyv := false
  err := false
  cause := .none
  ctr := 0#32
  seclen := 0#9
  sec := Vector.replicate 256 0#8
  keylen := 0#8
  key := Vector.replicate 160 0#8
  msg := Vector.replicate 8 0#8
  digest := Vector.replicate 20 0#8
  p := 0#31
  outlen := 0#4
  out := Vector.replicate 10 0#8
  pending := []
  resp := .none

end Sys2Proof.Machine
end

