-- ==== Sys2Proof/Machine/Ops.lean ====
section
/-! DEFINITION. The named operations over the registers: filling a byte buffer, the address map (spec 20_memory.md R51),
reading and writing one register (R52, R53). The block has no trap: what stands for taking an exception is a command
failure, one shared operation in Machine/Flags.lean (`failWith`); there is nothing to return from (60_exceptions.md
R187, R188). -/

namespace Sys2Proof.Machine

/-- The first `n` bytes of a sequence, zero-filled if it is shorter (D21). -/
def padTo : Nat → List Byte → List Byte
  | 0, _ => []
  | n + 1, [] => 0#8 :: padTo n []
  | n + 1, b :: bs => b :: padTo n bs

theorem padTo_length (n : Nat) (bs : List Byte) : (padTo n bs).length = n := by
  induction n generalizing bs with
  | zero => rfl
  | succ n ih => cases bs <;> simp [padTo, ih]

/-- A byte buffer of `n` registers that holds a sequence from its first element on and zeros behind it
(40_base32_decode.md R105, 42_truncate_format.md R142). -/
def fill (n : Nat) (bs : List Byte) : Vector Byte n :=
  ⟨(padTo n bs).toArray, by simp [padTo_length]⟩

/-- The byte address of a register (20_memory.md R51). -/
def Reg.addr : Reg → Addr
  | .id => 0x000#12
  | .cmd => 0x004#12
  | .status => 0x008#12
  | .ctr => 0x00C#12
  | .seclen => 0x010#12
  | .keylen => 0x014#12
  | .p => 0x018#12
  | .outlen => 0x01C#12
  | .msg i => BitVec.ofNat 12 (0x020 + 4 * i.val)
  | .digest i => BitVec.ofNat 12 (0x040 + 4 * i.val)
  | .out i => BitVec.ofNat 12 (0x090 + 4 * i.val)
  | .key i => BitVec.ofNat 12 (0x100 + 4 * i.val)
  | .sec i => BitVec.ofNat 12 (0x400 + 4 * i.val)

/-- The register at an aligned byte offset `n` of the register space, `none` in the reserved ranges (R51). -/
def regAtOffset (n : Nat) : Option Reg :=
  if n = 0x000 then some .id
  else if n = 0x004 then some .cmd
  else if n = 0x008 then some .status
  else if n = 0x00C then some .ctr
  else if n = 0x010 then some .seclen
  else if n = 0x014 then some .keylen
  else if n = 0x018 then some .p
  else if n = 0x01C then some .outlen
  else if h : 0x020 ≤ n ∧ n ≤ 0x03C then some (.msg ⟨(n - 0x020) / 4, by omega⟩)
  else if h : 0x040 ≤ n ∧ n ≤ 0x08C then some (.digest ⟨(n - 0x040) / 4, by omega⟩)
  else if h : 0x090 ≤ n ∧ n ≤ 0x0B4 then some (.out ⟨(n - 0x090) / 4, by omega⟩)
  else if h : 0x100 ≤ n ∧ n ≤ 0x37C then some (.key ⟨(n - 0x100) / 4, by omega⟩)
  else if h : 0x400 ≤ n ∧ n ≤ 0x7FC then some (.sec ⟨(n - 0x400) / 4, by omega⟩)
  else none

/-- The register at a byte address: `none` if misaligned or unmapped (R51, R54 items 2 and 3, R57). -/
def regAt (a : Addr) : Option Reg :=
  if a.toNat % 4 = 0 then regAtOffset a.toNat else none

/-- Whether the host may write a register: false for the read-only ones (R51, R54 item 4). -/
def Reg.writable : Reg → Bool
  | .id => false
  | .cmd => true
  | .status => false
  | .ctr => true
  | .seclen => true
  | .keylen => false
  | .p => true
  | .outlen => false
  | .msg _ => true
  | .digest _ => true
  | .out _ => false
  | .key _ => false
  | .sec _ => true

/-- The 4-bit code of a cause (10_state.md R24). -/
def Cause.code : Cause → BitVec 4
  | .none => 0#4
  | .empty => 1#4
  | .padCount => 2#4
  | .padPlace => 3#4
  | .badChar => 4#4
  | .noKey => 5#4
  | .badCmd => 6#4

/-- The value of `STATUS`: bits 31:8 zero, `CAUSE` in 7:4, bits 3:2 zero, `ERR` in 1, `KEYV` in 0 (10_state.md R23). -/
def statusWord (s : State) : Word :=
  0#24 ++ s.cause.code ++ 0#2 ++ BitVec.ofBool s.err ++ BitVec.ofBool s.keyv

/-- The value a read of a register returns, zero-extended to 32 bits; `CMD` reads 0 (R52, R55). -/
def readReg (s : State) : Reg → Word
  | .id => Config.idValue
  | .cmd => 0#32
  | .status => statusWord s
  | .ctr => s.ctr
  | .seclen => s.seclen.setWidth 32
  | .keylen => s.keylen.setWidth 32
  | .p => s.p.setWidth 32
  | .outlen => s.outlen.setWidth 32
  | .msg i => s.msg[i].setWidth 32
  | .digest i => s.digest[i].setWidth 32
  | .out i => s.out[i].setWidth 32
  | .key i => s.key[i].setWidth 32
  | .sec i => s.sec[i].setWidth 32

/-- The effect of a write of `v` on a data register (R53): the register takes the low bits of `v` and nothing else
changes. A read-only register is hardwired against the host, and `CMD` stores nothing (10_state.md R22). -/
def storeReg (r : Reg) (v : Word) (s : State) : State :=
  match r with
  | .id => s
  | .cmd => s
  | .status => s
  | .ctr => { s with ctr := v }
  | .seclen => { s with seclen := v.setWidth 9 }
  | .keylen => s
  | .p => { s with p := v.setWidth 31 }
  | .outlen => s
  | .msg i => { s with msg := s.msg.set i (v.setWidth 8) }
  | .digest i => { s with digest := s.digest.set i (v.setWidth 8) }
  | .out _ => s
  | .key _ => s
  | .sec i => { s with sec := s.sec.set i (v.setWidth 8) }

/-- The state with a response to the host. -/
def respond (r : Response) (s : State) : State := { s with resp := r }

/-- Every register of the block at its reset value, the host's side of the interface as it was (10_state.md R38). -/
def clearBlock (s : State) : State := { State.reset with pending := s.pending, resp := s.resp }

end Sys2Proof.Machine
end

