-- ==== Sys2Proof/Machine/Flags.lean ====
section
/-! DEFINITION. The result flags: every command writes `ERR` and `CAUSE`, neither is sticky (spec 10_state.md R23). A
command failure is the block's only exception: `fail(c)` of 00_scope.md R7, no trap and no control transfer
(60_exceptions.md R187). -/

namespace Sys2Proof.Machine

/-- The flags of a command that succeeded: `ERR <- 0`, `CAUSE <- NONE`. -/
def succeed (s : State) : State := { s with err := false, cause := .none }

/-- `fail(c)`: the flags of a command that failed, `ERR <- 1`, `CAUSE <- c` (R181). -/
def failWith (c : Cause) (s : State) : State := { s with err := true, cause := c }

/-- The illegal command: `ERR <- 1`, `CAUSE <- BADCMD`, nothing else (30_encoding.md R73). -/
def illegalCommand (s : State) : State := failWith .badCmd s

end Sys2Proof.Machine
end

