-- ==== Sys2Proof/Machine/Operands.lean ====
section
/-! DEFINITION. The operands of the commands: every operand is a named register or the valid part of a buffer (spec
30_encoding.md R74). -/

namespace Sys2Proof.Machine

/-- The input string `SEC[0..SECLEN)`; characters from `SECLEN` on are ignored (10_state.md R26, R27). In the states
outside the invariant, `SECLEN` above 256, it is all of `SEC` (log entry 18). -/
def secText (s : State) : List Byte := s.sec.toList.take s.seclen.toNat

/-- The key bytes `KEY[0..KEYLEN)` (R28). In the states outside the invariant, `KEYLEN` above 160, it is all of `KEY`
(log entry 18). -/
def keyBytes (s : State) : List Byte := s.key.toList.take s.keylen.toNat

/-- The message `MSG[0..8)` (R29). -/
def msgBytes (s : State) : List Byte := s.msg.toList

/-- The output string `OUT[0..OUTLEN)` (R32). -/
def outText (s : State) : List Byte := s.out.toList.take s.outlen.toNat

/-- The truncation offset: the low nibble of the last digest byte (42_truncate_format.md R140). -/
def truncOffset (d : Vector Byte 20) : Fin 16 :=
  ⟨(d[19] &&& 0x0F#8).toNat, by
    have h : (d[19] &&& 0x0F#8).toNat ≤ 15 := by
      rw [BitVec.toNat_and]
      exact Nat.and_le_right
    omega⟩

/-- The 4-byte window at an offset, first byte most significant (R140); the highest index read is 18 (R141). -/
def digestWindow (d : Vector Byte 20) (o : Fin 16) : Word :=
  be32 (d[o.val]'(by omega)) (d[o.val + 1]'(by omega)) (d[o.val + 2]'(by omega)) (d[o.val + 3]'(by omega))

end Sys2Proof.Machine
end

