-- ==== Sys2Proof/Machine/Base32.lean ====
section
/-! DEFINITION. The Base32 decoder with padding validation and its command `B32DEC` (spec 40_base32_decode.md). -/

namespace Sys2Proof.Machine

/-- The pad character `=` (R91). -/
def padChar : Byte := 0x3D#8

/-- `val(c)`: the 5-bit value of an alphabet character, `none` for every other byte (R90, R92). -/
def symbolVal (c : Byte) : Option (BitVec 5) :=
  if 0x41 ≤ c.toNat ∧ c.toNat ≤ 0x5A then some (BitVec.ofNat 5 (c.toNat - 0x41))
  else if 0x32 ≤ c.toNat ∧ c.toNat ≤ 0x37 then some (BitVec.ofNat 5 (c.toNat - 0x32 + 26))
  else none

/-- The pad characters anywhere in the string (R95; 90_conflicts.md C1). -/
def padCountOf (text : List Byte) : Nat := text.count padChar

/-- `PADSET`: the valid pad counts (00_scope.md R5, R95). -/
def padCountValid (c : Nat) : Bool := c == 6 || c == 4 || c == 3 || c == 1 || c == 0

/-- `PADCHECK`: the counts whose placement is checked (00_scope.md R5, R96; 90_conflicts.md C2). -/
def padPlaceChecked (c : Nat) : Bool := c == 6 || c == 4 || c == 3 || c == 1

/-- Whether the last `c` characters are all pad characters (R96). -/
def lastArePads (text : List Byte) (c : Nat) : Bool :=
  (text.drop (text.length - c)).all (· == padChar)

/-- The data string: the input with every pad character removed (R97). -/
def stripPads (text : List Byte) : List Byte := text.filter (· != padChar)

/-- The values of all characters, `none` as soon as one is not in the alphabet (R98). -/
def symbolVals : List Byte → Option (List (BitVec 5))
  | [] => some []
  | c :: cs =>
    match symbolVal c, symbolVals cs with
    | some v, some vs => some (v :: vs)
    | _, _ => none

/-- The five bits of a symbol, most significant first (R99). -/
def symbolBits (v : BitVec 5) : List Bool := [v[4], v[3], v[2], v[1], v[0]]

/-- The bit string of a sequence of symbols, first symbol first (R99). -/
def symbolsBits : List (BitVec 5) → List Bool
  | [] => []
  | v :: vs => symbolBits v ++ symbolsBits vs

/-- Eight bits as a byte, the first most significant (R99). -/
def byteOfBits (b7 b6 b5 b4 b3 b2 b1 b0 : Bool) : Byte :=
  BitVec.ofBool b7 ++ BitVec.ofBool b6 ++ BitVec.ofBool b5 ++ BitVec.ofBool b4 ++
    BitVec.ofBool b3 ++ BitVec.ofBool b2 ++ BitVec.ofBool b1 ++ BitVec.ofBool b0

/-- A bit string sliced into bytes; fewer than eight bits at the end are dropped (R99, R100), and no byte is dropped
for its value (R101). -/
def sliceBytes : List Bool → List Byte
  | b7 :: b6 :: b5 :: b4 :: b3 :: b2 :: b1 :: b0 :: rest => byteOfBits b7 b6 b5 b4 b3 b2 b1 b0 :: sliceBytes rest
  | _ => []

/-- The result of a decode: MFATS's `Optional<Bytes>`, with the cause of an absence (R93). -/
inductive Decoded where
  | present (bytes : List Byte)
  | absent (c : Cause)
  deriving DecidableEq, Repr

/-- `DecodeSecret`: the checks in the order of R94, R95, R96, R98, the first that fails giving the cause (R183), then
the bytes (R99, R100, R103). There is no check of the length (R102). -/
def decodeSecret (text : List Byte) : Decoded :=
  if text = [] then .absent .empty
  else if padCountValid (padCountOf text) = false then .absent .padCount
  else if padPlaceChecked (padCountOf text) && !lastArePads text (padCountOf text) then .absent .padPlace
  else
    match symbolVals (stripPads text) with
    | none => .absent .badChar
    | some vs => .present (sliceBytes (symbolsBits vs))

/-- A successful decode stored: the bytes, zeros behind them, the length, `KEYV <- 1` (R105). -/
def storeKey (bytes : List Byte) (s : State) : State :=
  succeed { s with key := fill 160 bytes, keylen := BitVec.ofNat 8 bytes.length, keyv := true }

/-- `fail_dec(c)`: the key gone, `KEYV <- 0` (R104). -/
def dropKey (c : Cause) (s : State) : State :=
  failWith c { s with key := fill 160 [], keylen := 0#8, keyv := false }

/-- The effect of `B32DEC` (R93). -/
def b32dec (s : State) : State :=
  match decodeSecret (secText s) with
  | .present bytes => storeKey bytes s
  | .absent c => dropKey c s

/-- `B32DEC` (R93): never a trap. -/
def execB32dec (s : State) : Host.Outcome State Fault Refusal := .next (b32dec s)

end Sys2Proof.Machine
end

