-- ==== Sys2Proof/Machine/Format.lean ====
section
/-! DEFINITION. The dynamic-truncation unit `DTRUNC` and the decimal formatter `DECFMT` (spec 42_truncate_format.md). -/

namespace Sys2Proof.Machine

/-- The truncated value of a digest: the window at the offset, masked with `0x7FFFFFFF` (R140). -/
def truncated (d : Vector Byte 20) : BitVec 31 :=
  (digestWindow d (truncOffset d) &&& 0x7FFFFFFF#32).setWidth 31

/-- The effect of `DTRUNC` (R140). -/
def dtrunc (s : State) : State := succeed { s with p := truncated s.digest }

/-- `DTRUNC` (R140): it always succeeds. -/
def execDtrunc (s : State) : Host.Outcome State Fault Refusal := .next (dtrunc s)

/-- The number of decimal digits of `n`, by at most `fuel` divisions by ten (R142: 1 for 0). -/
def digitCount : Nat → Nat → Nat
  | 0, _ => 1
  | fuel + 1, n => if n < 10 then 1 else digitCount fuel (n / 10) + 1

/-- The length of the output: at least `DIGITS`, and 10 digits at most for a 31-bit value (R142, R146). -/
def outputLength (n : Nat) : Nat := max Config.digits (digitCount 9 n)

/-- Character `i` of an output of `len` characters (R142). -/
def digitChar (n len i : Nat) : Byte := BitVec.ofNat 8 (0x30 + n / 10 ^ (len - 1 - i) % 10)

/-- The output string: the decimal numeral, left-padded with `0` to at least six characters, never reduced and never
shortened (R142, R143). -/
def decimalString (n : Nat) : List Byte :=
  (List.range (outputLength n)).map (digitChar n (outputLength n))

/-- An output string stored, zeros behind it (R142). -/
def storeOutput (text : List Byte) (s : State) : State :=
  { s with out := fill 10 text, outlen := BitVec.ofNat 4 text.length }

/-- The effect of `DECFMT` (R142). -/
def decfmt (s : State) : State := succeed (storeOutput (decimalString s.p.toNat) s)

/-- `DECFMT` (R142): it always succeeds. -/
def execDecfmt (s : State) : Host.Outcome State Fault Refusal := .next (decfmt s)

end Sys2Proof.Machine
end

