-- ==== Sys2Proof/Machine/Hmac.lean ====
section
/-! DEFINITION. The counter serialiser `CTRSER` and the command `HMAC` (spec 41_hmac_sha1.md R110, R121). -/

namespace Sys2Proof.Machine

/-- The message of a counter: four zero bytes, then the counter big-endian (R110). -/
def counterMessage (c : Word) : Vector Byte 8 :=
  #v[0#8, 0#8, 0#8, 0#8, c.extractLsb' 24 8, c.extractLsb' 16 8, c.extractLsb' 8 8, c.extractLsb' 0 8]

/-- The effect of `CTRSER` (R110). -/
def ctrser (s : State) : State := succeed { s with msg := counterMessage s.ctr }

/-- `CTRSER` (R110): it always succeeds. -/
def execCtrser (s : State) : Host.Outcome State Fault Refusal := .next (ctrser s)

/-- The effect of `HMAC` (R121): without a key it fails with `NOKEY` and `DIGEST` keeps its value. -/
def hmac (s : State) : State :=
  if s.keyv then succeed { s with digest := fill 20 (hmacSha1 (keyBytes s) (msgBytes s)) }
  else failWith .noKey s

/-- `HMAC` (R121): never a trap. -/
def execHmac (s : State) : Host.Outcome State Fault Refusal := .next (hmac s)

end Sys2Proof.Machine
end

