-- ==== Sys2Proof/Machine/Sequencer.lean ====
section
/-! DEFINITION. The OTP sequencer: the composite command `HOTP` and the command `CLR` (spec 43_otp_sequence.md). -/

namespace Sys2Proof.Machine

/-- The effect of `HOTP` (R160): the decode, then on success the four other steps, else the empty string with `MSG`,
`DIGEST` and `P` unchanged (R162). -/
def hotp (s : State) : State :=
  let d := b32dec s
  if d.keyv then decfmt (dtrunc (hmac (ctrser d))) else storeOutput [] d

/-- `HOTP` (R160): one atomic command (D31). -/
def execHotp (s : State) : Host.Outcome State Fault Refusal := .next (hotp s)

/-- `CLR` (R163): every state element of the block to its reset value. -/
def execClr (s : State) : Host.Outcome State Fault Refusal := .next (clearBlock s)

end Sys2Proof.Machine
end

