-- ==== Sys2Proof/Machine/Dispatch.lean ====
section
/-! DEFINITION. The dispatch of the seven commands to their meanings (spec 30_encoding.md R72). -/

namespace Sys2Proof.Machine

def exec (i : Instr) (s : State) : Host.Outcome State Fault Refusal :=
  match i with
  | .b32dec => Sys2Proof.Machine.execB32dec s
  | .ctrser => Sys2Proof.Machine.execCtrser s
  | .hmac => Sys2Proof.Machine.execHmac s
  | .dtrunc => Sys2Proof.Machine.execDtrunc s
  | .decfmt => Sys2Proof.Machine.execDecfmt s
  | .hotp => Sys2Proof.Machine.execHotp s
  | .clr => Sys2Proof.Machine.execClr s

end Sys2Proof.Machine
end

