-- ==== Sys2Proof/Machine/Bus.lean ====
section
/-! DEFINITION. The register interface: what a transaction, a reset and an idle step do (spec 20_memory.md R50 to R61,
70_reset_and_hazards.md R210). -/

namespace Sys2Proof.Machine

/-- The register a read reaches; `none` is an access error: size not 4, misaligned, or unmapped (R54 items 1 to 3). A
read of the write-only `CMD` is no error. -/
def readTarget (size : Nat) (a : Addr) : Option Reg :=
  if size = 4 then regAt a else none

/-- Whether a write of `v` is refused at its register: it is read-only (R54 item 4), or `SECLEN` would exceed 256
(item 5). -/
def writeRefused (r : Reg) (v : Word) : Bool :=
  !r.writable || (decide (r = .seclen) && decide (Config.nSec < v.toNat))

/-- The register a write reaches; `none` is an access error (R54). -/
def writeTarget (size : Nat) (a : Addr) (v : Word) : Option Reg :=
  if size = 4 then (regAt a).filter (fun r => !writeRefused r v) else none

/-- A write to `CMD` runs the command its data encodes, or the illegal command (30_encoding.md R71, R73). -/
def runCommand (w : Word) (s : State) : Host.Outcome State Fault Refusal :=
  match decode w with
  | .ok i => exec i s
  | .error _ => .next (illegalCommand s)

/-- `RegRead` (R52): the value of the register, or `ERROR`; no other effect. -/
def regRead (size : Nat) (a : Addr) (s : State) : Host.Outcome State Fault Refusal :=
  match readTarget size a with
  | some r => .next (respond (.data (readReg s r)) s)
  | none => .next (respond .error s)

/-- `RegWrite` (R53): the register takes the value, `CMD` runs a command, or `ERROR` with no other effect (R54). The
response to a `CMD` write is `OK` whatever the command's outcome. -/
def regWrite (size : Nat) (a : Addr) (v : Word) (s : State) : Host.Outcome State Fault Refusal :=
  match writeTarget size a v with
  | some r => if r = .cmd then runCommand v (respond .ok s) else .next (storeReg r v (respond .ok s))
  | none => .next (respond .error s)

/-- One transaction (R52, R53). -/
def transact (t : Transaction) (s : State) : Host.Outcome State Fault Refusal :=
  match t with
  | .regRead size a => regRead size a s
  | .regWrite size a v => regWrite size a v s

/-- The reset input: the reset state of the block, whatever it held and whatever transaction it cuts off, and no
response (70_reset_and_hazards.md R210). The events the environment has still to deliver are not the block's and stay
(log entry 5). -/
def applyReset (s : State) : State := respond .none (clearBlock s)

/-- One event of the environment (00_scope.md R9). -/
def perform (e : Event) (s : State) : Host.Outcome State Fault Refusal :=
  match e with
  | .transact t => transact t s
  | .reset _ => .next (applyReset s)

/-- The step: the oldest pending event takes place (R59). With nothing pending the block has no step of its own and
keeps its state (R9, 60_exceptions.md R194; log entry 3). -/
def deliverNext (s : State) : Host.Outcome State Fault Refusal :=
  match s.pending with
  | [] => .next s
  | e :: rest => perform e { s with pending := rest }

/-- The transaction that issues a command word: `RegWrite(0x004, w)` (30_encoding.md R70). -/
def commandWrite (w : Word) : Event := .transact (.regWrite 4 (Reg.addr .cmd) w)

/-- The command word `w` (its low `nbits` bits) put before all other pending events (log entry 4). -/
def placeCommand (s : State) (nbits w : Nat) : State :=
  { s with pending := commandWrite (BitVec.ofNat 32 (w % 2 ^ nbits)) :: s.pending }

end Sys2Proof.Machine
end

