-- ==== Sys2Proof/Machine/Step.lean ====
section
/-! DEFINITION. One step of the machine, and how the host places a command to be run next. -/

namespace Sys2Proof.Machine

/-- One step: one event of the environment is delivered (spec 00_scope.md R9, 20_memory.md R59). -/
def step (s : State) : Host.Outcome State Fault Refusal := Sys2Proof.Machine.deliverNext s

/-- `s` with a command word placed so that the very next step runs it. The block fetches nothing (10_state.md R34): a
command arrives as the data of a `RegWrite` to `CMD`. -/
def State.withFetchWord (s : State) (nbits w : Nat) : State := Sys2Proof.Machine.placeCommand s nbits w

end Sys2Proof.Machine
end

