-- ==== Sys2Proof/Machine/Script.lean ====
section
/-! DEFINITION. The host's scripts: lines, pseudo-instructions and their expansions to transactions (spec 30_encoding.md
R76 to R78). A script is the host's, not the block's: nothing here is state of the block. -/

namespace Sys2Proof.Machine

/-- A line that is a transaction, or a read whose number of transactions depends on what the block answers. -/
inductive BaseLine where
  /-- `WR <reg>, <value>`. -/
  | wr (addr : Addr) (v : Word)
  /-- `RD <reg>`. -/
  | rd (addr : Addr)
  /-- `RDKEY`. -/
  | rdkey
  /-- `RDOUT`. -/
  | rdout
  deriving DecidableEq, Repr

/-- A line of a script (R76, R78). -/
inductive Line where
  | wr (addr : Addr) (v : Word)
  /-- `RD <reg>`, with the expected value if the line gives one; the read is the same. -/
  | rd (addr : Addr) (expected : Option Word)
  | cmd (i : Instr)
  | ldsec (text : List Byte)
  | ldmsg (bytes : Vector Word 8)
  | lddigest (bytes : Vector Word 20)
  | rdkey
  | rdout
  | decodesecret (text : List Byte)
  | gethotp (text : List Byte) (counter : Word)
  | gettotp (text : List Byte) (unixSeconds : Nat)
  deriving DecidableEq, Repr

/-- The address of element `i` of a buffer at `base`, one word per element (20_memory.md R51). -/
def elementAddr (base i : Nat) : Addr := BitVec.ofNat 12 (base + 4 * i)

/-- `WR` lines for consecutive elements of a buffer, from element `i` on (R78). -/
def writeElements (base i : Nat) : List Word → List BaseLine
  | [] => []
  | v :: vs => .wr (elementAddr base i) v :: writeElements base (i + 1) vs

/-- `CMD <mnemonic>` (R78). -/
def cmdLine (i : Instr) : BaseLine := .wr (Reg.addr .cmd) (encode i)

/-- A number as the data of a transaction. A number of 2^32 or more is none (10_state.md R25, R78). -/
def wordOfNat (n : Nat) : Option Word := if n < 2 ^ 32 then some (BitVec.ofNat 32 n) else none

/-- `LDSEC "<text>"`: the characters in order, then `SECLEN`; a text of more than `N_SEC` characters is no `LDSEC`
(R78). -/
def ldsecLines (text : List Byte) : Option (List BaseLine) :=
  if text.length ≤ Config.nSec then
    some (writeElements 0x400 0 (text.map (·.setWidth 32)) ++ [.wr (Reg.addr .seclen) (BitVec.ofNat 32 text.length)])
  else none

/-- `DECODESECRET "<text>"` (R78). -/
def decodesecretLines (text : List Byte) : Option (List BaseLine) :=
  (ldsecLines text).map (· ++ [cmdLine .b32dec, .rdkey])

/-- `GETHOTP "<text>", <counter>` (R78). -/
def gethotpLines (text : List Byte) (counter : Word) : Option (List BaseLine) :=
  (ldsecLines text).map (· ++ [.wr (Reg.addr .ctr) counter, cmdLine .hotp, .rdout])

/-- The counter of a TOTP: `floor (t / 30)`, computed by the host (60_exceptions.md R195). One of 2^32 or more cannot be
written to `CTR` and is none: there is no wrap (43_otp_sequence.md R164, 93_implementation_defined.md U4). -/
def totpCounter (unixSeconds : Nat) : Option Word := wordOfNat (unixSeconds / Config.timeStep)

/-- The expansion of a line (R78); `none` for a line that cannot be expressed: a text of more than 256 characters, a
counter of 2^32 or more (log entry 16). -/
def Line.expand : Line → Option (List BaseLine)
  | .wr a v => some [.wr a v]
  | .rd a _ => some [.rd a]
  | .cmd i => some [cmdLine i]
  | .ldsec text => ldsecLines text
  | .ldmsg bytes => some (writeElements 0x020 0 bytes.toList)
  | .lddigest bytes => some (writeElements 0x040 0 bytes.toList)
  | .rdkey => some [.rdkey]
  | .rdout => some [.rdout]
  | .decodesecret text => decodesecretLines text
  | .gethotp text counter => gethotpLines text counter
  | .gettotp text t => (totpCounter t).bind (gethotpLines text)

/-- A line that can be expressed (R78). -/
def Line.wf (l : Line) : Bool := l.expand.isSome

/-- The expansion of a script, if every line of it can be expressed. -/
def expandScript : List Line → Option (List BaseLine)
  | [] => some []
  | l :: ls =>
    match l.expand, expandScript ls with
    | some a, some b => some (a ++ b)
    | _, _ => none

/-- Reads of the first `n` elements of a buffer (R78). -/
def readElements (base n : Nat) : List Transaction :=
  (List.range n).map fun i => .regRead 4 (elementAddr base i)

/-- The transactions of a line, issued on state `s`: `RDKEY` reads as many key bytes as `KEYLEN` says, `RDOUT` as many
characters as `OUTLEN` says (R78; log entry 15). -/
def BaseLine.transactions (s : State) : BaseLine → List Transaction
  | .wr a v => [.regWrite 4 a v]
  | .rd a => [.regRead 4 a]
  | .rdkey =>
    .regRead 4 (Reg.addr .status) :: .regRead 4 (Reg.addr .keylen) :: readElements 0x100 s.keylen.toNat
  | .rdout => .regRead 4 (Reg.addr .outlen) :: readElements 0x090 s.outlen.toNat

/-- Transactions in order, with the responses so far; an `ERROR` response does not stop them (R76). -/
def transactAll : List Transaction → State × List Response → Host.Outcome (State × List Response) Fault Refusal
  | [], acc => .next acc
  | t :: ts, acc =>
    match transact t acc.1 with
    | .next s => transactAll ts (s, acc.2 ++ [s.resp])
    | .fault r => .fault r
    | .refused r => .refused r

/-- Base lines in order (R76: no branches). -/
def runBaseLines : List BaseLine → State × List Response → Host.Outcome (State × List Response) Fault Refusal
  | [], acc => .next acc
  | l :: ls, acc =>
    match transactAll (l.transactions acc.1) acc with
    | .next acc' => runBaseLines ls acc'
    | .fault r => .fault r
    | .refused r => .refused r

/-- A script run from its first line to its last: the end state and every response in order (R76). A list of lines of
which one cannot be expressed is no script and issues no transaction (R78; log entry 16). -/
def runScript (lines : List Line) (s : State) : Option (Host.Outcome (State × List Response) Fault Refusal) :=
  (expandScript lines).map fun ls => runBaseLines ls (s, [])

end Sys2Proof.Machine
end

