-- ==== Sys2Proof/Machine/ScriptText.lean ====
section
/-! DEFINITION. Reading a line of script text (spec 30_encoding.md R76, R77, R78). Text is a list of ASCII codes. What
the rules leave to a reader of text (blanks, case, no escapes in quoted text) is log entry 16. -/

namespace Sys2Proof.Machine

/-- The codes of a Lean string's characters. -/
def asciiText (t : String) : List Byte := t.toList.map fun c => BitVec.ofNat 8 c.toNat

/-- A token of a script line. -/
inductive Token where
  | word (name : List Byte)
  | num (n : Nat)
  | text (chars : List Byte)
  | comma
  | lbracket
  | rbracket
  | arrow
  deriving DecidableEq, Repr

def isDigitCode (c : Byte) : Bool := decide (0x30 ≤ c.toNat ∧ c.toNat ≤ 0x39)

def isLetterCode (c : Byte) : Bool :=
  decide (0x41 ≤ c.toNat ∧ c.toNat ≤ 0x5A) || decide (0x61 ≤ c.toNat ∧ c.toNat ≤ 0x7A)

/-- The value of a hexadecimal digit. -/
def hexValue (c : Byte) : Option Nat :=
  if isDigitCode c then some (c.toNat - 0x30)
  else if 0x41 ≤ c.toNat ∧ c.toNat ≤ 0x46 then some (c.toNat - 0x41 + 10)
  else if 0x61 ≤ c.toNat ∧ c.toNat ≤ 0x66 then some (c.toNat - 0x61 + 10)
  else none

/-- A numeral in a base of at most 16, most significant digit first. -/
def numeralValue (base : Nat) : List Byte → Nat → Option Nat
  | [], acc => some acc
  | c :: cs, acc =>
    match hexValue c with
    | some d => if d < base then numeralValue base cs (base * acc + d) else none
    | none => none

/-- A number: decimal, or `0x` hexadecimal (R76). -/
def numberOf : List Byte → Option Nat
  | 0x30#8 :: 0x78#8 :: c :: cs => numeralValue 16 (c :: cs) 0
  | cs => numeralValue 10 cs 0

/-- Tokens of a line up to its comment; `fuel` bounds their number. `none`: the text is no line. -/
def tokensOf : Nat → List Byte → Option (List Token)
  | 0, _ => none
  | _, [] => some []
  | fuel + 1, c :: cs =>
    if c = 0x3B#8 then some []
    else if c = 0x20#8 ∨ c = 0x09#8 then tokensOf fuel cs
    else if c = 0x2C#8 then (tokensOf fuel cs).map (.comma :: ·)
    else if c = 0x5B#8 then (tokensOf fuel cs).map (.lbracket :: ·)
    else if c = 0x5D#8 then (tokensOf fuel cs).map (.rbracket :: ·)
    else if c = 0x2D#8 ∧ cs.head? = some 0x3E#8 then (tokensOf fuel (cs.drop 1)).map (.arrow :: ·)
    else if c = 0x22#8 then
      let quoted := cs.takeWhile (· != 0x22#8)
      if quoted.length < cs.length then
        (tokensOf fuel (cs.drop (quoted.length + 1))).map (.text quoted :: ·)
      else none
    else if isDigitCode c || isLetterCode c then
      let name := (c :: cs).takeWhile fun d => isDigitCode d || isLetterCode d
      let rest := (c :: cs).drop name.length
      if isDigitCode c then
        match numberOf name with
        | some n => (tokensOf fuel rest).map (.num n :: ·)
        | none => none
      else (tokensOf fuel rest).map (.word name :: ·)
    else none

/-- A scalar register's name (R77). -/
def scalarNamed (name : List Byte) : Option Reg :=
  if name = asciiText "ID" then some .id
  else if name = asciiText "CMD" then some .cmd
  else if name = asciiText "STATUS" then some .status
  else if name = asciiText "CTR" then some .ctr
  else if name = asciiText "SECLEN" then some .seclen
  else if name = asciiText "KEYLEN" then some .keylen
  else if name = asciiText "P" then some .p
  else if name = asciiText "OUTLEN" then some .outlen
  else none

/-- A buffer element's name, `i` in the element range (R77). -/
def elementNamed (name : List Byte) (i : Nat) : Option Reg :=
  if name = asciiText "MSG" then (if h : i < 8 then some (.msg ⟨i, h⟩) else none)
  else if name = asciiText "DIGEST" then (if h : i < 20 then some (.digest ⟨i, h⟩) else none)
  else if name = asciiText "OUT" then (if h : i < 10 then some (.out ⟨i, h⟩) else none)
  else if name = asciiText "KEY" then (if h : i < 160 then some (.key ⟨i, h⟩) else none)
  else if name = asciiText "SEC" then (if h : i < 256 then some (.sec ⟨i, h⟩) else none)
  else none

/-- `<reg>` at the front of a line's tokens: a register name or a literal byte address (R76, R77). -/
def regToken : List Token → Option (Addr × List Token)
  | .word name :: .lbracket :: .num i :: .rbracket :: rest => (elementNamed name i).map fun r => (r.addr, rest)
  | .word name :: rest => (scalarNamed name).map fun r => (r.addr, rest)
  | .num a :: rest => if a < 2 ^ 12 then some (BitVec.ofNat 12 a, rest) else none
  | _ => none

/-- A mnemonic (R72, R78). -/
def instrNamed (name : List Byte) : Option Instr :=
  if name = asciiText "B32DEC" then some .b32dec
  else if name = asciiText "CTRSER" then some .ctrser
  else if name = asciiText "HMAC" then some .hmac
  else if name = asciiText "DTRUNC" then some .dtrunc
  else if name = asciiText "DECFMT" then some .decfmt
  else if name = asciiText "HOTP" then some .hotp
  else if name = asciiText "CLR" then some .clr
  else none

/-- A list of numbers and nothing else, each of 32 bits. -/
def numberTokens : List Token → Option (List Word)
  | [] => some []
  | .num n :: rest =>
    match wordOfNat n, numberTokens rest with
    | some w, some ws => some (w :: ws)
    | _, _ => none
  | _ => none

/-- `n` numbers as the operand of `LDMSG` or `LDDIGEST` (R78). -/
def byteOperands (n : Nat) (ts : List Token) : Option (Vector Word n) :=
  match numberTokens ts with
  | some ws => if h : ws.length = n then some ⟨ws.toArray, by simp [h]⟩ else none
  | none => none

/-- `WR <reg>, <value>` after its first word. -/
def wrLine (ts : List Token) : Option Line :=
  match regToken ts with
  | some (a, [.comma, .num n]) => (wordOfNat n).map (.wr a ·)
  | _ => none

/-- `RD <reg>` and `RD <reg> -> <value>` after their first word. -/
def rdLine (ts : List Token) : Option Line :=
  match regToken ts with
  | some (a, []) => some (.rd a none)
  | some (a, [.arrow, .num n]) => (wordOfNat n).map fun v => .rd a (some v)
  | _ => none

/-- The line that a list of tokens is (R76, R78). -/
def lineOfTokens (name : List Byte) (ts : List Token) : Option Line :=
  if name = asciiText "WR" then wrLine ts
  else if name = asciiText "RD" then rdLine ts
  else if name = asciiText "LDMSG" then (byteOperands 8 ts).map .ldmsg
  else if name = asciiText "LDDIGEST" then (byteOperands 20 ts).map .lddigest
  else
    match ts with
    | [] =>
      if name = asciiText "RDKEY" then some .rdkey
      else if name = asciiText "RDOUT" then some .rdout
      else (instrNamed name).map .cmd
    | [.word m] => if name = asciiText "CMD" then (instrNamed m).map .cmd else none
    | [.text t] =>
      if name = asciiText "LDSEC" then some (.ldsec t)
      else if name = asciiText "DECODESECRET" then some (.decodesecret t)
      else none
    | [.text t, .comma, .num n] =>
      if name = asciiText "GETHOTP" then (wordOfNat n).map (.gethotp t ·)
      else if name = asciiText "GETTOTP" then some (.gettotp t n)
      else none
    | _ => none

/-- A line of text: `some none` if it holds only blanks and a comment, `none` if it is no line of a script or one that
cannot be expressed (`Line.wf`). -/
def parseLine (text : List Byte) : Option (Option Line) :=
  match tokensOf (text.length + 1) text with
  | some [] => some none
  | some (.word name :: ts) =>
    match lineOfTokens name ts with
    | some l => if l.wf then some (some l) else none
    | none => none
  | _ => none

end Sys2Proof.Machine
end

