-- ==== Sys2Proof/Safety.lean ====
section
/-! DEFINITION. What claims about the machine are said in: the invariant of spec 10_state.md R33, equality of the
block's state, sequences of commands, and reference functions that say a result another way than the machine computes
it. The machine never uses any of them. -/

namespace Sys2Proof.Safety

open Sys2Proof.Machine

/-- The invariant of reachable states (R33, items 1 to 8 in the spec's order). -/
structure Inv (s : State) : Prop where
  keylen_le : s.keylen.toNat ≤ 160
  key_tail : ∀ i : Fin 160, s.keylen.toNat ≤ i.val → s.key[i] = 0#8
  no_key : s.keyv = false → s.keylen = 0#8
  outlen_legal : s.outlen.toNat = 0 ∨ (6 ≤ s.outlen.toNat ∧ s.outlen.toNat ≤ 10)
  out_tail : ∀ i : Fin 10, s.outlen.toNat ≤ i.val → s.out[i] = 0#8
  out_digits : ∀ i : Fin 10, i.val < s.outlen.toNat → 0x30 ≤ s.out[i].toNat ∧ s.out[i].toNat ≤ 0x39
  no_leading_zero : 6 < s.outlen.toNat → s.out[0] ≠ 0x30#8
  seclen_le : s.seclen.toNat ≤ 256
  p_lt : s.p.toNat < 2 ^ 31
  err_iff_cause : s.err = false ↔ s.cause.code = 0#4
  cause_le : s.cause.code.toNat ≤ 6
  status_reserved : statusWord s &&& 0xFFFFFF0C#32 = 0#32

/-- Two states with the same block: every element of R20 equal, whatever the host's side holds. -/
structure SameBlock (s t : State) : Prop where
  keyv : s.keyv = t.keyv
  err : s.err = t.err
  cause : s.cause = t.cause
  ctr : s.ctr = t.ctr
  seclen : s.seclen = t.seclen
  sec : s.sec = t.sec
  keylen : s.keylen = t.keylen
  key : s.key = t.key
  msg : s.msg = t.msg
  digest : s.digest = t.digest
  p : s.p = t.p
  outlen : s.outlen = t.outlen
  out : s.out = t.out

/-- Commands issued one after the other. -/
def runCommands : List Instr → State → Host.Outcome State Fault Refusal
  | [], s => .next s
  | i :: is, s =>
    match exec i s with
    | .next s' => runCommands is s'
    | .fault r => .fault r
    | .refused r => .refused r

/-- `ComputeOTP(secret, counter)` as a function on strings: the empty string if the decode fails (43_otp_sequence.md
R160, R165). -/
def computeOtp (text : List Byte) (counter : Word) : List Byte :=
  match decodeSecret text with
  | .absent _ => []
  | .present key =>
    decimalString (truncated (fill 20 (hmacSha1 key (counterMessage counter).toList))).toNat

/-- The number a string of decimal digits denotes. -/
def decimalValue (text : List Byte) : Nat := text.foldl (fun n c => 10 * n + (c.toNat - 0x30)) 0

/-- Decoding in groups of eight symbols, at most `fuel` of them: each group sliced for itself, the last one as far as it
goes (40_base32_decode.md R98 to R100). -/
def groupDecode : Nat → List (BitVec 5) → List Byte
  | 0, _ => []
  | fuel + 1, vs => sliceBytes (symbolsBits (vs.take 8)) ++ groupDecode fuel (vs.drop 8)

/-- The character of a 5-bit value (R90, closed form). -/
def symbolChar (v : BitVec 5) : Byte :=
  if v.toNat ≤ 25 then BitVec.ofNat 8 (0x41 + v.toNat) else BitVec.ofNat 8 (0x32 + (v.toNat - 26))

/-- The bits of a byte sequence, first byte first, most significant bit first. -/
def bytesBits : List Byte → List Bool
  | [] => []
  | b :: bs => b[7] :: b[6] :: b[5] :: b[4] :: b[3] :: b[2] :: b[1] :: b[0] :: bytesBits bs

/-- Five bits as a symbol, the first most significant. -/
def symbolOfBits (b4 b3 b2 b1 b0 : Bool) : BitVec 5 :=
  BitVec.ofBool b4 ++ BitVec.ofBool b3 ++ BitVec.ofBool b2 ++ BitVec.ofBool b1 ++ BitVec.ofBool b0

/-- A bit string cut into symbols, the last one filled with zero bits. -/
def symbolsOfBits : List Bool → List (BitVec 5)
  | b4 :: b3 :: b2 :: b1 :: b0 :: rest => symbolOfBits b4 b3 b2 b1 b0 :: symbolsOfBits rest
  | [b4, b3, b2, b1] => [symbolOfBits b4 b3 b2 b1 false]
  | [b4, b3, b2] => [symbolOfBits b4 b3 b2 false false]
  | [b4, b3] => [symbolOfBits b4 b3 false false false]
  | [b4] => [symbolOfBits b4 false false false false]
  | [] => []

/-- The standard Base32 text of a byte sequence without padding. PRESUMED, log entry 19: RFC 4648. -/
def standardBase32Unpadded (bytes : List Byte) : List Byte := (symbolsOfBits (bytesBits bytes)).map symbolChar

/-- The standard Base32 text of a byte sequence, padded to a multiple of eight characters. PRESUMED, log entry 19. -/
def standardBase32 (bytes : List Byte) : List Byte :=
  let text := standardBase32Unpadded bytes
  text ++ List.replicate ((8 - text.length % 8) % 8) padChar

/-- The three reserved ranges of the address map (20_memory.md R51). -/
def ReservedAddr (a : Addr) : Prop :=
  (0x0B8 ≤ a.toNat ∧ a.toNat ≤ 0x0FF) ∨ (0x380 ≤ a.toNat ∧ a.toNat ≤ 0x3FF) ∨ 0x800 ≤ a.toNat

/-- The word addresses of the read-only registers `ID`, `STATUS`, `KEYLEN`, `OUTLEN`, `OUT[i]`, `KEY[i]` (R51, R54). -/
def ReadOnlyAddr (a : Addr) : Prop :=
  a = 0x000#12 ∨ a = 0x008#12 ∨ a = 0x014#12 ∨ a = 0x01C#12 ∨ (0x090 ≤ a.toNat ∧ a.toNat ≤ 0x0B4) ∨
    (0x100 ≤ a.toNat ∧ a.toNat ≤ 0x37C)

/-- `s` with one more transaction, the next to be delivered. -/
def withNext (t : Transaction) (s : State) : State := { s with pending := .transact t :: s.pending }

/-- A read of address `a` in `s` is answered with `v` and changes nothing. -/
def ReadGives (s : State) (a : Addr) (v : Word) : Prop :=
  step (withNext (.regRead 4 a) s) = .next { s with resp := .data v }

/-- A write of `v` to address `a` in `s` is answered `OK` and leaves `t` but for the response. -/
def WriteGives (s : State) (a : Addr) (v : Word) (t : State) : Prop :=
  step (withNext (.regWrite 4 a v) s) = .next { t with resp := .ok }

/-- The valid data bits of a register (20_memory.md R51). -/
def validBits : Reg → Word
  | .id => 0xFFFFFFFF#32
  | .cmd => 0xFFFFFFFF#32
  | .status => 0x000000FF#32
  | .ctr => 0xFFFFFFFF#32
  | .seclen => 0x000001FF#32
  | .keylen => 0x000000FF#32
  | .p => 0x7FFFFFFF#32
  | .outlen => 0x0000000F#32
  | .msg _ => 0x000000FF#32
  | .digest _ => 0x000000FF#32
  | .out _ => 0x000000FF#32
  | .key _ => 0x000000FF#32
  | .sec _ => 0x000000FF#32

/-- The characters of a string that are not pad characters, by position: the 5-bit value of the `q`-th (R97, R99). -/
def dataSymbol (text : List Byte) (q : Nat) : BitVec 5 :=
  (symbolVal ((text.filter (· != 0x3D#8)).getD q 0#8)).getD 0#5

/-- The pad placement of a string whose pad count is `c`: its last `c` characters are pad characters (R96). -/
def PadsTrail (text : List Byte) (c : Nat) : Prop :=
  ∀ j, text.length - c ≤ j → j < text.length → text[j]? = some 0x3D#8

/-- Every character of a string but the pad character is in the alphabet (R98). -/
def SymbolsValid (text : List Byte) : Prop := ∀ c ∈ text, c ≠ 0x3D#8 → (symbolVal c).isSome = true

/-- A state after a failed decode: no key (40_base32_decode.md R104). -/
def withoutKey (c : Cause) (s : State) : State :=
  { s with key := Vector.replicate 160 0#8, keylen := 0#8, keyv := false, err := true, cause := c }

end Sys2Proof.Safety
end

