-- ==== Sys2Proof/Certificates/Slice0/Obligations.lean ====
section
/-! DEFINITION. The statements for the provers, from the numbered rules of the spec. Each docstring names what it
formalises. -/

open Sys2Proof Sys2Proof.Machine Sys2Proof.Safety

/-! ### Encoding, and how a command comes to run -/

/-- 30_encoding.md R72: each of the seven words, as the opcode map writes it, decodes to its command; three words beside
them do not decode. -/
def Obligations.CommandWordsDecode : Prop :=
  decode 0x00000001#32 = .ok .b32dec ∧ decode 0x00000002#32 = .ok .ctrser ∧ decode 0x00000003#32 = .ok .hmac ∧
  decode 0x00000004#32 = .ok .dtrunc ∧ decode 0x00000005#32 = .ok .decfmt ∧ decode 0x00000006#32 = .ok .hotp ∧
  decode 0x00000007#32 = .ok .clr ∧ decode 0x00000000#32 = .error .undefinedOpcode ∧
  decode 0x00000008#32 = .error .undefinedOpcode ∧ decode 0x00000106#32 = .error .mbzNotZero

/-- 30_encoding.md section 2: encoding and decoding agree in both directions, and the words that decode are exactly the
well-formed ones. -/
def Obligations.DecodeEncodeAgree : Prop :=
  (∀ i : Instr, i.wf = true → decode (encode i) = .ok i ∧ wordWf (encode i) = true) ∧
  (∀ (w : Word) (i : Instr), decode w = .ok i → w = encode i) ∧
  (∀ w : Word, wordWf w = true ↔ ∃ i, decode w = .ok i)

/-- 30_encoding.md R71 and R73: a write to `CMD` executes the one command that bits 31:8 and 7:0 of its data encode, and
every other word the illegal command, which sets `ERR` and `CAUSE` and nothing else, with response `OK`. -/
def Obligations.CommandWriteExecutesItsWord : Prop :=
  ∀ (s : State) (w : Word) (rest : List Event), s.pending = .transact (.regWrite 4 0x004#12 w) :: rest →
    (∀ i : Instr, w.extractLsb' 8 24 = 0#24 → w.extractLsb' 0 8 = opcodeOf i →
      step s = exec i { s with pending := rest, resp := .ok }) ∧
    ((∀ i : Instr, ¬ (w.extractLsb' 8 24 = 0#24 ∧ w.extractLsb' 0 8 = opcodeOf i)) →
      step s = .next { s with pending := rest, resp := .ok, err := true, cause := .badCmd })

/-- The step runs the decoded command: from a pending `CMD` write, and as the host places one (log entry 4). -/
def Obligations.StepRunsDecodedInstruction : Prop :=
  (∀ (s : State) (w : Word) (i : Instr) (rest : List Event), s.pending = commandWrite w :: rest →
    decode w = .ok i → i.wf = true → step s = exec i { s with pending := rest, resp := .ok }) ∧
  (∀ (s : State) (nbits w : Nat) (i : Instr), decodeTableWord nbits w = some i → i.wf = true →
    step (s.withFetchWord nbits w) = exec i { s with resp := .ok })

/-- The model's choice of log entry 3: with nothing pending the step leaves the state as it is. -/
def Obligations.IdleStepKeepsState : Prop :=
  ∀ s : State, s.pending = [] → step s = .next s

/-! ### The Base32 decoder -/

/-- 40_base32_decode.md R90: the alphabet in closed form, and `val` of R92 finds nothing else. -/
def Obligations.AlphabetClosedForm : Prop :=
  (∀ v : BitVec 5, v.toNat ≤ 25 → symbolVal (BitVec.ofNat 8 (0x41 + v.toNat)) = some v) ∧
  (∀ v : BitVec 5, 26 ≤ v.toNat → symbolVal (BitVec.ofNat 8 (0x32 + (v.toNat - 26))) = some v) ∧
  (∀ c : Byte, symbolVal c ≠ none → ∃ v : BitVec 5, c = symbolChar v)

/-- 40_base32_decode.md R94, R95, R96, R104: `B32DEC` fails with the first check that fails, the key is gone, and nothing
else changes; the fourth clause is the check of R98. The input is `SEC[0..SECLEN)`. -/
def Obligations.DecodeFailureCause : Prop :=
  ∀ (s : State) (text : List Byte), text = s.sec.toList.take s.seclen.toNat →
    (s.seclen = 0#9 → exec .b32dec s = .next (withoutKey .empty s)) ∧
    (s.seclen ≠ 0#9 → text.count 0x3D#8 ∉ [6, 4, 3, 1, 0] → exec .b32dec s = .next (withoutKey .padCount s)) ∧
    (s.seclen ≠ 0#9 → text.count 0x3D#8 ∈ [6, 4, 3, 1, 0] → ¬ PadsTrail text (text.count 0x3D#8) →
      exec .b32dec s = .next (withoutKey .padPlace s)) ∧
    (s.seclen ≠ 0#9 → text.count 0x3D#8 ∈ [6, 4, 3, 1, 0] → PadsTrail text (text.count 0x3D#8) →
      ¬ SymbolsValid text → exec .b32dec s = .next (withoutKey .badChar s))

/-- 40_base32_decode.md R99, R105: a decode that passes every check stores `k = floor(5m/8)` bytes, bit by bit the bits of
the symbols as R93's pseudocode places them, and zeros behind them; only `KEY`, `KEYLEN`, `KEYV`, `ERR`, `CAUSE` change. -/
def Obligations.DecodeSuccessStoresKey : Prop :=
  ∀ (s : State) (text : List Byte) (k : Nat), text = s.sec.toList.take s.seclen.toNat →
    k = 5 * (text.filter (· != 0x3D#8)).length / 8 →
    s.seclen ≠ 0#9 → text.count 0x3D#8 ∈ [6, 4, 3, 1, 0] → PadsTrail text (text.count 0x3D#8) → SymbolsValid text →
    ∃ t : State, exec .b32dec s = .next t ∧ t.keylen.toNat = k ∧
      (∀ (j : Fin 160) (b : Fin 8), j.val < k → t.key[j].getLsbD (7 - b.val) =
        (dataSymbol text ((8 * j.val + b.val) / 5)).getLsbD (4 - (8 * j.val + b.val) % 5)) ∧
      (∀ j : Fin 160, k ≤ j.val → t.key[j] = 0#8) ∧
      t = { s with key := t.key, keylen := t.keylen, keyv := true, err := false, cause := .none }

/-- 40_base32_decode.md section 3, the inference of R103: slicing group by group gives the bytes of the whole bit string,
`floor(5m/8)` of them. -/
def Obligations.GroupwiseDecodingEqualsWhole : Prop :=
  ∀ vs : List (BitVec 5), groupDecode vs.length vs = sliceBytes (symbolsBits vs) ∧
    (sliceBytes (symbolsBits vs)).length = 5 * vs.length / 8

/-- 40_base32_decode.md sections 2 and 3 (R101, R106): the decoder inverts a standard Base32 encoding of any key bytes,
padded or not; no byte is dropped for its value. The standard encoder is PRESUMED (log entry 19). -/
def Obligations.StandardBase32RoundTrip : Prop :=
  ∀ bytes : List Byte, bytes ≠ [] →
    decodeSecret (standardBase32 bytes) = .present bytes ∧
    decodeSecret (standardBase32Unpadded bytes) = .present bytes

/-- 40_base32_decode.md section 2 (R102): the pad count need not match the data length; pads of any valid count behind
valid symbols leave the decoded bytes as they are without pads. -/
def Obligations.PadsDoNotChangeBytes : Prop :=
  ∀ (data : List Byte) (c : Nat), data ≠ [] → (∀ x ∈ data, (symbolVal x).isSome = true) → c ∈ [1, 3, 4, 6] →
    ∃ bytes, decodeSecret data = .present bytes ∧ decodeSecret (data ++ List.replicate c 0x3D#8) = .present bytes

/-- 40_base32_decode.md section 3, the inference of R106: every text of `L` alphabet characters decodes, to
`floor(5L/8)` bytes. -/
def Obligations.AlphabetTextDecodes : Prop :=
  ∀ vs : List (BitVec 5), vs ≠ [] → ∃ bytes, decodeSecret (vs.map symbolChar) = .present bytes ∧
    bytes.length = 5 * vs.length / 8

/-! ### The counter serialiser, SHA-1 and HMAC -/

/-- 41_hmac_sha1.md R110. -/
def Obligations.CtrserWritesCounterMessage : Prop :=
  ∀ s : State, exec .ctrser s = .next
    { s with
      msg := #v[0#8, 0#8, 0#8, 0#8, s.ctr.extractLsb' 24 8, s.ctr.extractLsb' 16 8, s.ctr.extractLsb' 8 8,
        s.ctr.extractLsb' 0 8],
      err := false, cause := .none }

/-- 41_hmac_sha1.md R111: the padded message, with the least number of zero bytes, and its length in blocks. -/
def Obligations.Sha1PaddingForm : Prop :=
  ∀ b : List Byte, ∃ z : Nat, (b.length + 1 + z) % 64 = 56 ∧ (∀ z' < z, (b.length + 1 + z') % 64 ≠ 56) ∧
    sha1Pad b = b ++ [0x80#8] ++ List.replicate z 0#8 ++ beBytes 8 (8 * b.length) ∧
    (sha1Pad b).length = 64 * ((b.length + 8) / 64 + 1)

/-- 41_hmac_sha1.md R114: the message schedule as a recurrence over its index. -/
def Obligations.Sha1ScheduleRecurrence : Prop :=
  ∀ m : List Word, m.length = 16 → (schedule m).length = 80 ∧
    (∀ t < 16, (schedule m).getD t 0 = m.getD t 0) ∧
    (∀ t, 16 ≤ t → t ≤ 79 → (schedule m).getD t 0 =
      ((schedule m).getD (t - 3) 0 ^^^ (schedule m).getD (t - 8) 0 ^^^ (schedule m).getD (t - 14) 0 ^^^
        (schedule m).getD (t - 16) 0).rotateLeft 1)

/-- 41_hmac_sha1.md R115: the round functions and constants by range of the round. -/
def Obligations.Sha1RoundFunctions : Prop :=
  ∀ (t : Nat) (x y z : Word),
    (t ≤ 19 → roundF t x y z = (x &&& y) ||| (~~~x &&& z) ∧ roundK t = 0x5A827999#32) ∧
    (20 ≤ t → t ≤ 39 → roundF t x y z = x ^^^ y ^^^ z ∧ roundK t = 0x6ED9EBA1#32) ∧
    (40 ≤ t → t ≤ 59 → roundF t x y z = (x &&& y) ||| (x &&& z) ||| (y &&& z) ∧ roundK t = 0x8F1BBCDC#32) ∧
    (60 ≤ t → t ≤ 79 → roundF t x y z = x ^^^ y ^^^ z ∧ roundK t = 0xCA62C1D6#32)

/-- 41_hmac_sha1.md R116: the compression as 80 successive values of the working variables; `v t` holds `a` to `e` before
round `t`. -/
def Obligations.Sha1CompressionRounds : Prop :=
  ∀ (h : Hash) (m : List Word), m.length = 16 → ∃ v : Nat → Hash, v 0 = h ∧
    (∀ t < 80,
      (v (t + 1)).a = (v t).a.rotateLeft 5 + roundF t (v t).b (v t).c (v t).d + (v t).e + roundK t +
        (schedule m).getD t 0 ∧
      (v (t + 1)).b = (v t).a ∧ (v (t + 1)).c = (v t).b.rotateLeft 30 ∧ (v (t + 1)).d = (v t).c ∧
      (v (t + 1)).e = (v t).d) ∧
    compress h m =
      ⟨h.a + (v 80).a, h.b + (v 80).b, h.c + (v 80).c, h.d + (v 80).d, h.e + (v 80).e⟩

/-- 41_hmac_sha1.md R112, R113, R117: the padded message block by block, each read as sixteen big-endian words, from the
initial hash value to the digest. `H i` is the running hash before block `i`, counted from 0. -/
def Obligations.Sha1BlockByBlock : Prop :=
  ∀ (b p : List Byte) (n : Nat), p = sha1Pad b → p.length = 64 * n → ∃ H : Nat → Hash,
    H 0 = ⟨0x67452301#32, 0xEFCDAB89#32, 0x98BADCFE#32, 0x10325476#32, 0xC3D2E1F0#32⟩ ∧
    (∀ i < n, H (i + 1) = compress (H i) ((List.range 16).map fun t =>
      p.getD (64 * i + 4 * t) 0#8 ++ p.getD (64 * i + 4 * t + 1) 0#8 ++ p.getD (64 * i + 4 * t + 2) 0#8 ++
        p.getD (64 * i + 4 * t + 3) 0#8)) ∧
    sha1 b = beBytes 4 (H n).a.toNat ++ beBytes 4 (H n).b.toNat ++ beBytes 4 (H n).c.toNat ++
      beBytes 4 (H n).d.toNat ++ beBytes 4 (H n).e.toNat

/-- 41_hmac_sha1.md section 2 (R118): the two reference digests. -/
def Obligations.Sha1ReferenceDigests : Prop :=
  sha1 [] = [0xda#8, 0x39#8, 0xa3#8, 0xee#8, 0x5e#8, 0x6b#8, 0x4b#8, 0x0d#8, 0x32#8, 0x55#8, 0xbf#8, 0xef#8, 0x95#8,
    0x60#8, 0x18#8, 0x90#8, 0xaf#8, 0xd8#8, 0x07#8, 0x09#8] ∧
  sha1 [0x61#8, 0x62#8, 0x63#8] = [0xa9#8, 0x99#8, 0x3e#8, 0x36#8, 0x47#8, 0x06#8, 0x81#8, 0x6a#8, 0xba#8, 0x3e#8,
    0x25#8, 0x71#8, 0x78#8, 0x50#8, 0xc2#8, 0x6c#8, 0x9c#8, 0xd0#8, 0xd8#8, 0x9d#8]

/-- 41_hmac_sha1.md R119: the two nested hashes over the padded key block, 20 bytes. -/
def Obligations.HmacConstruction : Prop :=
  ∀ k m k1 k0 : List Byte, (64 < k.length → k1 = sha1 k) → (k.length ≤ 64 → k1 = k) →
    k0 = k1 ++ List.replicate (64 - k1.length) 0x00#8 →
    hmacSha1 k m = sha1 (k0.map (fun x => x ^^^ 0x5C#8) ++ sha1 (k0.map (fun x => x ^^^ 0x36#8) ++ m)) ∧
    (hmacSha1 k m).length = 20

/-- 41_hmac_sha1.md R120: the key block in each case, and the keys that share one. -/
def Obligations.HmacKeyBlockCases : Prop :=
  ∀ k m : List Byte, (hmacKeyBlock k).length = 64 ∧
    (k.length = 0 → hmacKeyBlock k = List.replicate 64 0#8) ∧
    (k.length < 64 → hmacKeyBlock k = k ++ List.replicate (64 - k.length) 0#8) ∧
    (k.length = 64 → hmacKeyBlock k = k) ∧
    (64 < k.length → hmacKeyBlock k = sha1 k ++ List.replicate 44 0#8) ∧
    (64 < k.length → (sha1 k).length = 20 ∧ hmacSha1 (sha1 k) m = hmacSha1 k m) ∧
    (∀ n, k.length + n ≤ 64 → hmacSha1 (k ++ List.replicate n 0#8) m = hmacSha1 k m)

/-- 41_hmac_sha1.md R121: without a key `HMAC` fails and `DIGEST` keeps its value, with one it stores the HMAC of the
message; in both cases nothing else changes. -/
def Obligations.HmacCommandResult : Prop :=
  ∀ s : State,
    (s.keyv = false → exec .hmac s = .next { s with err := true, cause := .noKey }) ∧
    (s.keyv = true → ∃ d : Vector Byte 20,
      d.toList = hmacSha1 (s.key.toList.take s.keylen.toNat) s.msg.toList ∧
      exec .hmac s = .next { s with digest := d, err := false, cause := .none })

/-- 41_hmac_sha1.md section 4, the inference of R123: after a successful `HMAC` the digest is a function of the key bytes
and the message alone. -/
def Obligations.HmacDigestDeterminedByKeyAndMessage : Prop :=
  ∀ s s' : State, s.keyv = true → s'.keyv = true →
    s.key.toList.take s.keylen.toNat = s'.key.toList.take s'.keylen.toNat → s.msg = s'.msg →
    ∃ t t' : State, exec .hmac s = .next t ∧ exec .hmac s' = .next t' ∧ t.digest = t'.digest

/-- 41_hmac_sha1.md section 4, the example of R121 (RFC 2202 case 1). -/
def Obligations.HmacPublishedExample : Prop :=
  hmacSha1 (List.replicate 20 0x0b#8) [0x48#8, 0x69#8, 0x20#8, 0x54#8, 0x68#8, 0x65#8, 0x72#8, 0x65#8] =
    [0xb6#8, 0x17#8, 0x31#8, 0x86#8, 0x55#8, 0x05#8, 0x72#8, 0x64#8, 0xe2#8, 0x8b#8, 0xc0#8, 0xb6#8, 0xfb#8, 0x37#8,
      0x8c#8, 0x8e#8, 0xf1#8, 0x46#8, 0xbe#8, 0x00#8]

/-! ### Truncation and formatting -/

/-- 42_truncate_format.md R140: the window at the low nibble of `DIGEST[19]`, read big-endian, without its top bit; only
`P`, `ERR` and `CAUSE` change. -/
def Obligations.DtruncResult : Prop :=
  ∀ (s : State) (o : Nat) (d : Nat → Nat), o = s.digest[19].toNat % 16 →
    (∀ k, d k = (s.digest.toList.getD k 0#8).toNat) →
    exec .dtrunc s = .next
      { s with
        p := BitVec.ofNat 31 (d o * 2 ^ 24 + d (o + 1) * 2 ^ 16 + d (o + 2) * 2 ^ 8 + d (o + 3)),
        err := false, cause := .none }

/-- 42_truncate_format.md section 1, the inference of R141: the window ends at index 18, only the low nibble of
`DIGEST[19]` and the window matter, the top bit of the window's first byte does not, and every 31-bit value is reached. -/
def Obligations.DtruncIgnoredBits : Prop :=
  (∀ d : Vector Byte 20, d[19].toNat % 16 + 3 ≤ 18) ∧
  (∀ (d d' : Vector Byte 20) (o : Fin 16), o.val = d[19].toNat % 16 → o.val = d'[19].toNat % 16 →
    (∀ k : Fin 4, d[o.val + k.val] = d'[o.val + k.val]) → truncated d = truncated d') ∧
  (∀ (d : Vector Byte 20) (o : Fin 16), o.val = d[19].toNat % 16 →
    truncated (d.set o.val (d[o.val] ^^^ 0x80#8)) = truncated d) ∧
  (∀ p : BitVec 31, ∃ d : Vector Byte 20, truncated d = p)

/-- 42_truncate_format.md R142: the decimal numeral of `P`, left-padded with `0` to at least six characters; only `OUT`,
`OUTLEN`, `ERR` and `CAUSE` change. -/
def Obligations.DecfmtResult : Prop :=
  ∀ s : State, ∃ (t : State) (nd len : Nat), exec .decfmt s = .next t ∧
    ((s.p = 0#31 ∧ nd = 1) ∨ (s.p ≠ 0#31 ∧ 10 ^ (nd - 1) ≤ s.p.toNat ∧ s.p.toNat < 10 ^ nd)) ∧
    1 ≤ nd ∧ nd ≤ 10 ∧ len = max 6 nd ∧ t.outlen.toNat = len ∧
    (∀ i : Fin 10, i.val < len → t.out[i].toNat = 0x30 + s.p.toNat / 10 ^ (len - 1 - i.val) % 10) ∧
    (∀ i : Fin 10, len ≤ i.val → t.out[i] = 0#8) ∧
    t = { s with out := t.out, outlen := t.outlen, err := false, cause := .none }

/-- 42_truncate_format.md R143: no modulo and no cut; the string denotes `P` itself, and its last six characters denote
the value a modulo would have left. -/
def Obligations.DecfmtNoModulo : Prop :=
  ∀ s : State, ∃ t : State, exec .decfmt s = .next t ∧
    decimalValue (t.out.toList.take t.outlen.toNat) = s.p.toNat ∧
    decimalValue ((t.out.toList.take t.outlen.toNat).drop (t.outlen.toNat - 6)) = s.p.toNat % 10 ^ 6

/-- 42_truncate_format.md section 2, the inference of R144: the length of the output by range of `P`. -/
def Obligations.OutputLengthByRange : Prop :=
  ∀ s : State, ∃ t : State, exec .decfmt s = .next t ∧
    (s.p.toNat ≤ 999999 → t.outlen = 6#4) ∧
    (1000000 ≤ s.p.toNat → s.p.toNat ≤ 9999999 → t.outlen = 7#4) ∧
    (10000000 ≤ s.p.toNat → s.p.toNat ≤ 99999999 → t.outlen = 8#4) ∧
    (100000000 ≤ s.p.toNat → s.p.toNat ≤ 999999999 → t.outlen = 9#4) ∧
    (1000000000 ≤ s.p.toNat → t.outlen = 10#4)

/-- 42_truncate_format.md section 2, the corner cases of R145. -/
def Obligations.DecfmtCornerCases : Prop :=
  decimalString 0 = [0x30#8, 0x30#8, 0x30#8, 0x30#8, 0x30#8, 0x30#8] ∧
  decimalString 999999 = [0x39#8, 0x39#8, 0x39#8, 0x39#8, 0x39#8, 0x39#8] ∧
  decimalString 1000000 = [0x31#8, 0x30#8, 0x30#8, 0x30#8, 0x30#8, 0x30#8, 0x30#8] ∧
  decimalString 2147483647 =
    [0x32#8, 0x31#8, 0x34#8, 0x37#8, 0x34#8, 0x38#8, 0x33#8, 0x36#8, 0x34#8, 0x37#8]

/-! ### The sequencer -/

/-- 43_otp_sequence.md R160: `HOTP` computes every intermediate and the output when the decode succeeds, and leaves the
empty string, no key and the old `MSG`, `DIGEST`, `P` when it fails. -/
def Obligations.HotpResult : Prop :=
  ∀ s : State,
    (∀ key : List Byte, decodeSecret (secText s) = .present key →
      ∃ t : State, exec .hotp s = .next t ∧ t.key.toList.take t.keylen.toNat = key ∧ t.key = fill 160 key ∧
        t.keylen.toNat = key.length ∧ t.msg = counterMessage s.ctr ∧
        t.digest.toList = hmacSha1 key t.msg.toList ∧ t.p = truncated t.digest ∧
        t.out.toList.take t.outlen.toNat = decimalString t.p.toNat ∧ t.out = fill 10 (decimalString t.p.toNat) ∧
        6 ≤ t.outlen.toNat ∧ t.outlen.toNat ≤ 10 ∧
        t = { s with
              key := t.key, keylen := t.keylen, keyv := true, msg := t.msg, digest := t.digest, p := t.p,
              out := t.out, outlen := t.outlen, err := false, cause := .none }) ∧
    (∀ c : Cause, decodeSecret (secText s) = .absent c →
      exec .hotp s = .next { withoutKey c s with out := Vector.replicate 10 0#8, outlen := 0#4 })

/-- 43_otp_sequence.md section 1, the inference of R161: `HOTP` equals the five unit commands when the decode succeeds, and
`B32DEC` with an empty output when it fails. -/
def Obligations.HotpEqualsUnitCommands : Prop :=
  ∀ s : State, ∃ d : State, exec .b32dec s = .next d ∧
    (d.keyv = true → ∃ t : State, exec .hotp s = .next t ∧
      runCommands [.b32dec, .ctrser, .hmac, .dtrunc, .decfmt] s = .next t) ∧
    (d.keyv = false → exec .hotp s = .next { d with out := Vector.replicate 10 0#8, outlen := 0#4 })

/-- 43_otp_sequence.md section 1 (R162): after `HOTP` the host tells "no OTP" from "valid OTP" by `OUTLEN` alone. -/
def Obligations.HotpEmptyExactlyOnFailure : Prop :=
  ∀ s : State, ∃ t : State, exec .hotp s = .next t ∧
    (t.outlen = 0#4 ↔ t.keyv = false) ∧ (t.outlen ≠ 0#4 → 6 ≤ t.outlen.toNat ∧ t.outlen.toNat ≤ 10) ∧
    (t.keyv = false → t.msg = s.msg ∧ t.digest = s.digest ∧ t.p = s.p)

/-- 43_otp_sequence.md R163: `CLR` sets every state element of the block to zero. The host's side of the interface
(log entries 1 and 2) is no state element of the block. -/
def Obligations.ClrZeroesBlock : Prop :=
  ∀ s : State, exec .clr s = .next
    { keyv := false, err := false, cause := .none, ctr := 0#32, seclen := 0#9, sec := Vector.replicate 256 0#8,
      keylen := 0#8, key := Vector.replicate 160 0#8, msg := Vector.replicate 8 0#8,
      digest := Vector.replicate 20 0#8, p := 0#31, outlen := 0#4, out := Vector.replicate 10 0#8,
      pending := s.pending, resp := s.resp }

/-! ### Scripts: the document's public operations from end to end -/

/-- 30_encoding.md section 4, 00_scope.md section 5, 43_otp_sequence.md section 3: `GETHOTP`, run through the register
interface from any state, has every write answered `OK` and reads back exactly the string of `ComputeOTP`. How many
characters its `RDOUT` reads is log entry 15. -/
def Obligations.GethotpScriptReturnsOtp : Prop :=
  ∀ (s : State) (text : List Byte) (counter : Word), text.length ≤ 256 →
    ∃ t : State, runScript [.gethotp text counter] s = some (.next (t,
      List.replicate (text.length + 3) .ok ++
        .data (BitVec.ofNat 32 (computeOtp text counter).length) ::
          (computeOtp text counter).map fun c => .data (c.setWidth 32)))

/-- 30_encoding.md section 4, 00_scope.md section 5, 43_otp_sequence.md section 3: `DECODESECRET`, run through the register
interface from any state, reads back exactly the decoded bytes, or `KEYV = 0` and no byte. How many bytes its `RDKEY`
reads is log entry 15. -/
def Obligations.DecodesecretScriptReturnsKey : Prop :=
  ∀ (s : State) (text : List Byte), text.length ≤ 256 →
    (∀ key, decodeSecret text = .present key → ∃ t : State, runScript [.decodesecret text] s = some (.next (t,
      List.replicate (text.length + 2) .ok ++ .data 0x00000001#32 :: .data (BitVec.ofNat 32 key.length) ::
        key.map fun c => .data (c.setWidth 32)))) ∧
    (∀ c, decodeSecret text = .absent c → ∃ (t : State) (st : Word), st.getLsbD 0 = false ∧
      runScript [.decodesecret text] s = some (.next (t,
        List.replicate (text.length + 2) .ok ++ [.data st, .data 0#32])))

/-- 43_otp_sequence.md section 3 (R164), 30_encoding.md section 4 (R78): `GETTOTP` at `t` expands as `GETHOTP` with the
counter `floor (t / 30)`; it is no line where that counter cannot be written to `CTR`; so two calls within one 30-second
window issue the same lines. -/
def Obligations.TotpSameWindowSameLines : Prop :=
  ∀ (text : List Byte) (t : Nat),
    (t / 30 < 2 ^ 32 →
      (Line.gettotp text t).expand = (Line.gethotp text (BitVec.ofNat 32 (t / 30))).expand) ∧
    (2 ^ 32 ≤ t / 30 → (Line.gettotp text t).expand = none) ∧
    (∀ t' : Nat, t / 30 = t' / 30 → (Line.gettotp text t).expand = (Line.gettotp text t').expand)

/-! ### The register interface -/

/-- 20_memory.md R52: what a read of each register answers, zero-extended, with no other effect; an access error answers
`ERROR`. -/
def Obligations.ReadsAnswerRegisters : Prop :=
  ∀ s : State,
    ReadGives s 0x000#12 0x4D464131#32 ∧ ReadGives s 0x004#12 0#32 ∧
    ReadGives s 0x008#12 (statusWord s) ∧ ReadGives s 0x00C#12 s.ctr ∧
    ReadGives s 0x010#12 (s.seclen.setWidth 32) ∧ ReadGives s 0x014#12 (s.keylen.setWidth 32) ∧
    ReadGives s 0x018#12 (s.p.setWidth 32) ∧ ReadGives s 0x01C#12 (s.outlen.setWidth 32) ∧
    (∀ i : Fin 8, ReadGives s (BitVec.ofNat 12 (0x020 + 4 * i.val)) (s.msg[i].setWidth 32)) ∧
    (∀ i : Fin 20, ReadGives s (BitVec.ofNat 12 (0x040 + 4 * i.val)) (s.digest[i].setWidth 32)) ∧
    (∀ i : Fin 10, ReadGives s (BitVec.ofNat 12 (0x090 + 4 * i.val)) (s.out[i].setWidth 32)) ∧
    (∀ i : Fin 160, ReadGives s (BitVec.ofNat 12 (0x100 + 4 * i.val)) (s.key[i].setWidth 32)) ∧
    (∀ i : Fin 256, ReadGives s (BitVec.ofNat 12 (0x400 + 4 * i.val)) (s.sec[i].setWidth 32)) ∧
    (∀ (size : Nat) (a : Addr), size ≠ 4 ∨ a.toNat % 4 ≠ 0 ∨ ReservedAddr a →
      step (withNext (.regRead size a) s) = .next { s with resp := .error })

/-- 20_memory.md R53: the effect of a write on each register it may reach; a write to `CMD` is answered `OK` whatever it
executes, a refused write `ERROR` with no effect. -/
def Obligations.WritesReachRegisters : Prop :=
  ∀ (s : State) (v : Word),
    WriteGives s 0x00C#12 v { s with ctr := v } ∧
    (v.toNat ≤ 256 → WriteGives s 0x010#12 v { s with seclen := v.extractLsb' 0 9 }) ∧
    WriteGives s 0x018#12 v { s with p := v.extractLsb' 0 31 } ∧
    (∀ i : Fin 8, WriteGives s (BitVec.ofNat 12 (0x020 + 4 * i.val)) v
      { s with msg := s.msg.set i (v.extractLsb' 0 8) }) ∧
    (∀ i : Fin 20, WriteGives s (BitVec.ofNat 12 (0x040 + 4 * i.val)) v
      { s with digest := s.digest.set i (v.extractLsb' 0 8) }) ∧
    (∀ i : Fin 256, WriteGives s (BitVec.ofNat 12 (0x400 + 4 * i.val)) v
      { s with sec := s.sec.set i (v.extractLsb' 0 8) }) ∧
    (∃ t : State, runCommand v { s with resp := .ok } = .next t ∧ WriteGives s 0x004#12 v t) ∧
    (∀ (size : Nat) (a : Addr), size ≠ 4 ∨ a.toNat % 4 ≠ 0 ∨ ReservedAddr a ∨ ReadOnlyAddr a ∨
        (a = 0x010#12 ∧ 256 < v.toNat) →
      step (withNext (.regWrite size a v) s) = .next { s with resp := .error })

/-- 20_memory.md R54: the access errors and no others. An access error changes no state; any other transaction is
answered without `ERROR`. -/
def Obligations.AccessErrorsAndNoOthers : Prop :=
  ∀ (s : State) (size : Nat) (a : Addr),
    ((size ≠ 4 ∨ a.toNat % 4 ≠ 0 ∨ ReservedAddr a) →
      step (withNext (.regRead size a) s) = .next { s with resp := .error }) ∧
    (¬ (size ≠ 4 ∨ a.toNat % 4 ≠ 0 ∨ ReservedAddr a) →
      ∃ v : Word, step (withNext (.regRead size a) s) = .next { s with resp := .data v }) ∧
    (∀ v : Word, (size ≠ 4 ∨ a.toNat % 4 ≠ 0 ∨ ReservedAddr a ∨ ReadOnlyAddr a ∨ (a = 0x010#12 ∧ 256 < v.toNat)) →
      step (withNext (.regWrite size a v) s) = .next { s with resp := .error }) ∧
    (∀ v : Word, ¬ (size ≠ 4 ∨ a.toNat % 4 ≠ 0 ∨ ReservedAddr a ∨ ReadOnlyAddr a ∨ (a = 0x010#12 ∧ 256 < v.toNat)) →
      ∃ t : State, step (withNext (.regWrite size a v) s) = .next t ∧ t.resp = .ok)

/-- 20_memory.md section 1 (R51): the address map gives each register one address and each mapped address one register;
exactly the misaligned and the reserved addresses have none. -/
def Obligations.AddressMapOneToOne : Prop :=
  (∀ (a : Addr) (r : Reg), regAt a = some r ↔ a = r.addr) ∧
  (∀ a : Addr, regAt a = none ↔ (a.toNat % 4 ≠ 0 ∨ ReservedAddr a))

/-- 20_memory.md section 5 (R59): a read returns the valid bits of the last value written, and every other register reads
as before the write. -/
def Obligations.ReadAfterWrite : Prop :=
  ∀ (s : State) (r : Reg) (v : Word), r.writable = true → r ≠ .cmd → (r = .seclen → v.toNat ≤ 256) →
    ∃ t : State, WriteGives s r.addr v t ∧ ReadGives t r.addr (v &&& validBits r) ∧
      (∀ r' : Reg, r' ≠ r → readReg t r' = readReg s r')

/-- 10_state.md section 2 (R23, R24): the layout of `STATUS`, and the code of each cause. -/
def Obligations.StatusLayout : Prop :=
  ∀ s : State, (statusWord s).getLsbD 0 = s.keyv ∧ (statusWord s).getLsbD 1 = s.err ∧
    (statusWord s).extractLsb' 2 2 = 0#2 ∧ (statusWord s).extractLsb' 4 4 = s.cause.code ∧
    (statusWord s).extractLsb' 8 24 = 0#24 ∧
    Cause.none.code = 0#4 ∧ Cause.empty.code = 1#4 ∧ Cause.padCount.code = 2#4 ∧ Cause.padPlace.code = 3#4 ∧
    Cause.badChar.code = 4#4 ∧ Cause.noKey.code = 5#4 ∧ Cause.badCmd.code = 6#4

/-- 20_memory.md section 4, the inference of R58: a write to `CMD` is idempotent for every command, and for every illegal
word. -/
def Obligations.CommandWriteIdempotent : Prop :=
  ∀ (w : Word) (s : State), ∃ t : State, runCommand w s = .next t ∧ runCommand w t = .next t

/-- 20_memory.md section 2 and 70_reset_and_hazards.md section 3 (R53, R214): a transaction that is no write to `CMD`
changes neither `STATUS` nor any result register. -/
def Obligations.DataTransactionsKeepResults : Prop :=
  ∀ (s : State) (x : Transaction), (∀ v : Word, x ≠ .regWrite 4 0x004#12 v) →
    ∃ t : State, step (withNext x s) = .next t ∧ statusWord t = statusWord s ∧ t.keyv = s.keyv ∧
      t.keylen = s.keylen ∧ t.key = s.key ∧ t.out = s.out ∧ t.outlen = s.outlen ∧ t.pending = s.pending

/-! ### Rules about the whole machine -/

/-- 10_state.md R38. -/
def Obligations.ResetStateAllZero : Prop :=
  statusWord State.reset = 0x00000000#32 ∧ State.reset.keyv = false ∧ State.reset.err = false ∧
  State.reset.cause.code = 0#4 ∧ State.reset.ctr = 0#32 ∧ State.reset.seclen = 0#9 ∧
  (∀ i : Fin 256, State.reset.sec[i] = 0x00#8) ∧ State.reset.keylen = 0#8 ∧
  (∀ i : Fin 160, State.reset.key[i] = 0x00#8) ∧ (∀ i : Fin 8, State.reset.msg[i] = 0x00#8) ∧
  (∀ i : Fin 20, State.reset.digest[i] = 0x00#8) ∧ State.reset.p = 0#31 ∧ State.reset.outlen = 0#4 ∧
  (∀ i : Fin 10, State.reset.out[i] = 0x00#8) ∧ readReg State.reset .id = 0x4D464131#32

/-- 70_reset_and_hazards.md R210: a reset, also one that cuts off a transaction, leaves the reset state of the block
whatever the state before it. -/
def Obligations.ResetOverridesTransaction : Prop :=
  ∀ (s : State) (during : Option Transaction) (rest : List Event), s.pending = .reset during :: rest →
    ∃ t : State, step s = .next t ∧ SameBlock t State.reset ∧ readReg t .id = 0x4D464131#32

/-- 70_reset_and_hazards.md section 1, the inference of R211: each command on the reset state. -/
def Obligations.CommandsOnResetState : Prop :=
  exec .b32dec State.reset = .next { State.reset with err := true, cause := .empty } ∧
  exec .ctrser State.reset = .next State.reset ∧
  exec .hmac State.reset = .next { State.reset with err := true, cause := .noKey } ∧
  exec .dtrunc State.reset = .next State.reset ∧
  exec .decfmt State.reset = .next
    { State.reset with
      out := #v[0x30#8, 0x30#8, 0x30#8, 0x30#8, 0x30#8, 0x30#8, 0#8, 0#8, 0#8, 0#8], outlen := 6#4 } ∧
  exec .hotp State.reset = .next { State.reset with err := true, cause := .empty } ∧
  exec .clr State.reset = .next State.reset

/-- 10_state.md section 4, the inference of R33: the invariant holds in the reset state. -/
def Obligations.InvariantHoldsAtReset : Prop := Inv State.reset

/-- 10_state.md section 4, the inference of R33: every command and every step keeps the invariant, from every state that
meets it. -/
def Obligations.EveryStepKeepsInvariant : Prop :=
  (∀ (i : Instr) (s t : State), Inv s → exec i s = .next t → Inv t) ∧
  (∀ s t : State, Inv s → step s = .next t → Inv t)

/-- 60_exceptions.md section 1 (R180): nothing traps or stops; every command and every step, from every state, answers a
next state. -/
def Obligations.EveryStepAnswersNext : Prop :=
  (∀ (i : Instr) (s : State), ∃ t : State, exec i s = .next t) ∧ (∀ s : State, ∃ t : State, step s = .next t)

/-- 10_state.md section 2 (R23): `KEYV` is changed only by `B32DEC`, `HOTP`, `CLR` and reset. -/
def Obligations.KeyvChangedOnlyByDecodeOrClear : Prop :=
  ∀ s t : State, step s = .next t → t.keyv ≠ s.keyv →
    (∃ (i : Instr) (rest : List Event), i ∈ [Instr.b32dec, .hotp, .clr] ∧
      s.pending = .transact (.regWrite 4 0x004#12 (encode i)) :: rest) ∨
    (∃ (d : Option Transaction) (rest : List Event), s.pending = .reset d :: rest)

/-- 30_encoding.md section 3 (R74), the write sets: every command's frame. `ERR` and `CAUSE` may change under every one. -/
def Obligations.CommandsWriteOnlyTheirRegisters : Prop :=
  ∀ (i : Instr) (s t : State), exec i s = .next t →
    (i ≠ .clr → t.ctr = s.ctr ∧ t.seclen = s.seclen ∧ t.sec = s.sec) ∧
    (i ∉ [Instr.b32dec, .hotp, .clr] → t.key = s.key ∧ t.keylen = s.keylen ∧ t.keyv = s.keyv) ∧
    (i ∉ [Instr.ctrser, .hotp, .clr] → t.msg = s.msg) ∧
    (i ∉ [Instr.hmac, .hotp, .clr] → t.digest = s.digest) ∧
    (i = .hmac → s.keyv = false → t.digest = s.digest) ∧
    (i ∉ [Instr.dtrunc, .hotp, .clr] → t.p = s.p) ∧
    (i ∉ [Instr.decfmt, .hotp, .clr] → t.out = s.out ∧ t.outlen = s.outlen) ∧
    (i = .hotp → t.keyv = false → t.msg = s.msg ∧ t.digest = s.digest ∧ t.p = s.p) ∧
    t.pending = s.pending ∧ t.resp = s.resp

/-- 30_encoding.md section 3 (R74), the read sets: a command's results are the same from any two states that agree on its
operands. -/
def Obligations.CommandsReadOnlyTheirOperands : Prop :=
  ∀ s s' : State,
    (s.sec.toList.take s.seclen.toNat = s'.sec.toList.take s'.seclen.toNat →
      ∃ t t' : State, exec .b32dec s = .next t ∧ exec .b32dec s' = .next t' ∧ t.key = t'.key ∧
        t.keylen = t'.keylen ∧ t.keyv = t'.keyv ∧ t.err = t'.err ∧ t.cause = t'.cause) ∧
    (s.ctr = s'.ctr → ∃ t t' : State, exec .ctrser s = .next t ∧ exec .ctrser s' = .next t' ∧ t.msg = t'.msg ∧
      t.err = t'.err ∧ t.cause = t'.cause) ∧
    (s.p = s'.p → ∃ t t' : State, exec .decfmt s = .next t ∧ exec .decfmt s' = .next t' ∧ t.out = t'.out ∧
      t.outlen = t'.outlen ∧ t.err = t'.err ∧ t.cause = t'.cause) ∧
    (s.sec.toList.take s.seclen.toNat = s'.sec.toList.take s'.seclen.toNat → s.ctr = s'.ctr →
      ∃ t t' : State, exec .hotp s = .next t ∧ exec .hotp s' = .next t' ∧ t.key = t'.key ∧ t.keylen = t'.keylen ∧
        t.keyv = t'.keyv ∧ t.out = t'.out ∧ t.outlen = t'.outlen ∧ t.err = t'.err ∧ t.cause = t'.cause ∧
        (t.keyv = true → t.msg = t'.msg ∧ t.digest = t'.digest ∧ t.p = t'.p)) ∧
    (s.keyv = s'.keyv → s.keylen = s'.keylen →
      s.key.toList.take s.keylen.toNat = s'.key.toList.take s'.keylen.toNat → s.msg = s'.msg →
      ∃ t t' : State, exec .hmac s = .next t ∧ exec .hmac s' = .next t' ∧ t.err = t'.err ∧ t.cause = t'.cause ∧
        (s.keyv = true → t.digest = t'.digest)) ∧
    (∀ o : Fin 16, s.digest[19] = s'.digest[19] → o.val = s.digest[19].toNat % 16 →
      (∀ k : Fin 4, s.digest[o.val + k.val] = s'.digest[o.val + k.val]) →
      ∃ t t' : State, exec .dtrunc s = .next t ∧ exec .dtrunc s' = .next t' ∧ t.p = t'.p ∧ t.err = t'.err ∧
        t.cause = t'.cause) ∧
    (∃ t t' : State, exec .clr s = .next t ∧ exec .clr s' = .next t' ∧ SameBlock t t')

/-- 60_exceptions.md R188: the next command, whatever word it is, overwrites `ERR` and `CAUSE`; what an earlier failure
left in them makes no difference. -/
def Obligations.FailuresDoNotAccumulate : Prop :=
  ∀ (w : Word) (s : State) (e : Bool) (c : Cause), ∃ t : State,
    runCommand w s = .next t ∧ runCommand w { s with err := e, cause := c } = .next t

/-- 60_exceptions.md R181 and R183: which command can fail with which cause, on which input, in which order the causes of
a decode are looked for, and what a failure writes. -/
def Obligations.FailureCausesPerCommand : Prop :=
  ∀ (s : State) (text : List Byte), text = s.sec.toList.take s.seclen.toNat →
    (∀ i ∈ [Instr.b32dec, .hotp], ∃ t : State, exec i s = .next t ∧
      (t.cause = .empty ↔ s.seclen = 0#9) ∧
      (t.cause = .padCount ↔ s.seclen ≠ 0#9 ∧ text.count 0x3D#8 ∉ [6, 4, 3, 1, 0]) ∧
      (t.cause = .padPlace ↔
        s.seclen ≠ 0#9 ∧ text.count 0x3D#8 ∈ [6, 4, 3, 1, 0] ∧ ¬ PadsTrail text (text.count 0x3D#8)) ∧
      (t.cause = .badChar ↔ s.seclen ≠ 0#9 ∧ text.count 0x3D#8 ∈ [6, 4, 3, 1, 0] ∧
        PadsTrail text (text.count 0x3D#8) ∧ ¬ SymbolsValid text) ∧
      ((t.err = false ∧ t.cause = .none) ∨
        (t.cause ∈ [Cause.empty, .padCount, .padPlace, .badChar] ∧ t.err = true ∧ t.keyv = false ∧
          t.keylen = 0#8 ∧ t.key = Vector.replicate 160 0#8 ∧
          (i = .hotp → t.out = Vector.replicate 10 0#8 ∧ t.outlen = 0#4)))) ∧
    (∃ t : State, exec .hmac s = .next t ∧ (t.err = true ↔ s.keyv = false) ∧
      (t.err = true → t = { s with err := true, cause := .noKey })) ∧
    (∀ i ∈ [Instr.ctrser, .dtrunc, .decfmt, .clr], ∃ t : State, exec i s = .next t ∧ t.err = false) ∧
    (∀ w : Word, wordWf w = false → runCommand w s = .next { s with err := true, cause := .badCmd })

/-- 30_encoding.md section 4 (R76, R78), 43_otp_sequence.md section 3 (R164): exactly the scripts without a text of more
than 256 characters and without a counter of 2^32 or more run. Such a line issues no transaction; no counter wraps. That
the whole script then issues none is the model's choice (log entry 16). A script that runs does so line by line, in order,
to its last line, with every response; a `WR` or an `RD` is one transaction, and an `ERROR` response to it ends nothing. -/
def Obligations.ScriptsRunIffExpressible : Prop :=
  (∀ (lines : List Line) (s : State), runScript lines s = none ↔ ∃ l ∈ lines,
    (∃ text, 256 < text.length ∧ (l = .ldsec text ∨ l = .decodesecret text ∨ (∃ c, l = .gethotp text c) ∨
      ∃ t, l = .gettotp text t)) ∨
    (∃ text t, l = .gettotp text t ∧ 2 ^ 32 ≤ t / 30)) ∧
  (∀ s : State, runScript [] s = some (.next (s, []))) ∧
  (∀ (l : Line) (ls : List Line) (s : State), runScript (l :: ls) s ≠ none →
    ∃ (t u : State) (log log' : List Response), runScript [l] s = some (.next (t, log)) ∧
      runScript ls t = some (.next (u, log')) ∧ runScript (l :: ls) s = some (.next (u, log ++ log'))) ∧
  (∀ (a : Addr) (v : Word) (s : State), ∃ t : State, step (withNext (.regWrite 4 a v) s) = .next t ∧
    runScript [.wr a v] s = some (.next (t, [t.resp]))) ∧
  (∀ (a : Addr) (expected : Option Word) (s : State), ∃ t : State, step (withNext (.regRead 4 a) s) = .next t ∧
    runScript [.rd a expected] s = some (.next (t, [t.resp])))

/-- 30_encoding.md section 4 (R78): each pseudo-instruction runs as the lines of its expansion do, from every state.
`RDKEY` and `RDOUT` read as many elements as the length register holds (log entry 15), also in states no run reaches,
where some of these reads are answered `ERROR` (log entry 18). -/
def Obligations.PseudoInstructionExpansions : Prop :=
  ∀ s : State,
    (∀ i : Instr, runScript [.cmd i] s = runScript [.wr 0x004#12 (encode i)] s) ∧
    (∀ text : List Byte, text.length ≤ 256 → runScript [.ldsec text] s = runScript
      (text.mapIdx (fun i c => Line.wr (BitVec.ofNat 12 (0x400 + 4 * i)) (c.setWidth 32)) ++
        [.wr 0x010#12 (BitVec.ofNat 32 text.length)]) s) ∧
    (∀ b : Vector Word 8, runScript [.ldmsg b] s = runScript
      (List.ofFn fun i : Fin 8 => Line.wr (BitVec.ofNat 12 (0x020 + 4 * i.val)) b[i]) s) ∧
    (∀ b : Vector Word 20, runScript [.lddigest b] s = runScript
      (List.ofFn fun i : Fin 20 => Line.wr (BitVec.ofNat 12 (0x040 + 4 * i.val)) b[i]) s) ∧
    runScript [.rdkey] s = runScript (.rd 0x008#12 none :: .rd 0x014#12 none ::
      (List.range s.keylen.toNat).map fun i => Line.rd (BitVec.ofNat 12 (0x100 + 4 * i)) none) s ∧
    runScript [.rdout] s = runScript (.rd 0x01C#12 none ::
      (List.range s.outlen.toNat).map fun i => Line.rd (BitVec.ofNat 12 (0x090 + 4 * i)) none) s ∧
    (∀ text : List Byte, runScript [.decodesecret text] s = runScript [.ldsec text, .cmd .b32dec, .rdkey] s) ∧
    (∀ (text : List Byte) (counter : Word), runScript [.gethotp text counter] s =
      runScript [.ldsec text, .wr 0x00C#12 counter, .cmd .hotp, .rdout] s) ∧
    (∀ (text : List Byte) (t : Nat), t / 30 < 2 ^ 32 → runScript [.gettotp text t] s =
      runScript [.gethotp text (BitVec.ofNat 32 (t / 30))] s)
end

