-- ==== Sys2Proof/Laws/State.lean ====
section
/-! SUPPORT. One lemma per field per update of the state, so that no proof unfolds a record update. -/

namespace Sys2Proof.Machine

@[simp] theorem config_digits : Config.digits = 6 := rfl
@[simp] theorem config_nSec : Config.nSec = 256 := rfl
@[simp] theorem config_blockLen : Config.blockLen = 64 := rfl
@[simp] theorem config_idValue : Config.idValue = 0x4D464131#32 := rfl
@[simp] theorem config_timeStep : Config.timeStep = 30 := rfl

variable (s : State)

@[simp] theorem reset_keyv : State.reset.keyv = false := rfl
@[simp] theorem reset_err : State.reset.err = false := rfl
@[simp] theorem reset_cause : State.reset.cause = .none := rfl
@[simp] theorem reset_ctr : State.reset.ctr = 0#32 := rfl
@[simp] theorem reset_seclen : State.reset.seclen = 0#9 := rfl
@[simp] theorem reset_sec : State.reset.sec = Vector.replicate 256 0#8 := rfl
@[simp] theorem reset_keylen : State.reset.keylen = 0#8 := rfl
@[simp] theorem reset_key : State.reset.key = Vector.replicate 160 0#8 := rfl
@[simp] theorem reset_msg : State.reset.msg = Vector.replicate 8 0#8 := rfl
@[simp] theorem reset_digest : State.reset.digest = Vector.replicate 20 0#8 := rfl
@[simp] theorem reset_p : State.reset.p = 0#31 := rfl
@[simp] theorem reset_outlen : State.reset.outlen = 0#4 := rfl
@[simp] theorem reset_out : State.reset.out = Vector.replicate 10 0#8 := rfl
@[simp] theorem reset_pending : State.reset.pending = [] := rfl
@[simp] theorem reset_resp : State.reset.resp = .none := rfl

@[simp] theorem succeed_keyv : (succeed s).keyv = s.keyv := rfl
@[simp] theorem succeed_err : (succeed s).err = false := rfl
@[simp] theorem succeed_cause : (succeed s).cause = .none := rfl
@[simp] theorem succeed_ctr : (succeed s).ctr = s.ctr := rfl
@[simp] theorem succeed_seclen : (succeed s).seclen = s.seclen := rfl
@[simp] theorem succeed_sec : (succeed s).sec = s.sec := rfl
@[simp] theorem succeed_keylen : (succeed s).keylen = s.keylen := rfl
@[simp] theorem succeed_key : (succeed s).key = s.key := rfl
@[simp] theorem succeed_msg : (succeed s).msg = s.msg := rfl
@[simp] theorem succeed_digest : (succeed s).digest = s.digest := rfl
@[simp] theorem succeed_p : (succeed s).p = s.p := rfl
@[simp] theorem succeed_outlen : (succeed s).outlen = s.outlen := rfl
@[simp] theorem succeed_out : (succeed s).out = s.out := rfl
@[simp] theorem succeed_pending : (succeed s).pending = s.pending := rfl
@[simp] theorem succeed_resp : (succeed s).resp = s.resp := rfl

@[simp] theorem failWith_keyv (c : Cause) : (failWith c s).keyv = s.keyv := rfl
@[simp] theorem failWith_err (c : Cause) : (failWith c s).err = true := rfl
@[simp] theorem failWith_cause (c : Cause) : (failWith c s).cause = c := rfl
@[simp] theorem failWith_ctr (c : Cause) : (failWith c s).ctr = s.ctr := rfl
@[simp] theorem failWith_seclen (c : Cause) : (failWith c s).seclen = s.seclen := rfl
@[simp] theorem failWith_sec (c : Cause) : (failWith c s).sec = s.sec := rfl
@[simp] theorem failWith_keylen (c : Cause) : (failWith c s).keylen = s.keylen := rfl
@[simp] theorem failWith_key (c : Cause) : (failWith c s).key = s.key := rfl
@[simp] theorem failWith_msg (c : Cause) : (failWith c s).msg = s.msg := rfl
@[simp] theorem failWith_digest (c : Cause) : (failWith c s).digest = s.digest := rfl
@[simp] theorem failWith_p (c : Cause) : (failWith c s).p = s.p := rfl
@[simp] theorem failWith_outlen (c : Cause) : (failWith c s).outlen = s.outlen := rfl
@[simp] theorem failWith_out (c : Cause) : (failWith c s).out = s.out := rfl
@[simp] theorem failWith_pending (c : Cause) : (failWith c s).pending = s.pending := rfl
@[simp] theorem failWith_resp (c : Cause) : (failWith c s).resp = s.resp := rfl

@[simp] theorem illegalCommand_keyv : (illegalCommand s).keyv = s.keyv := rfl
@[simp] theorem illegalCommand_err : (illegalCommand s).err = true := rfl
@[simp] theorem illegalCommand_cause : (illegalCommand s).cause = .badCmd := rfl
@[simp] theorem illegalCommand_ctr : (illegalCommand s).ctr = s.ctr := rfl
@[simp] theorem illegalCommand_seclen : (illegalCommand s).seclen = s.seclen := rfl
@[simp] theorem illegalCommand_sec : (illegalCommand s).sec = s.sec := rfl
@[simp] theorem illegalCommand_keylen : (illegalCommand s).keylen = s.keylen := rfl
@[simp] theorem illegalCommand_key : (illegalCommand s).key = s.key := rfl
@[simp] theorem illegalCommand_msg : (illegalCommand s).msg = s.msg := rfl
@[simp] theorem illegalCommand_digest : (illegalCommand s).digest = s.digest := rfl
@[simp] theorem illegalCommand_p : (illegalCommand s).p = s.p := rfl
@[simp] theorem illegalCommand_outlen : (illegalCommand s).outlen = s.outlen := rfl
@[simp] theorem illegalCommand_out : (illegalCommand s).out = s.out := rfl
@[simp] theorem illegalCommand_pending : (illegalCommand s).pending = s.pending := rfl
@[simp] theorem illegalCommand_resp : (illegalCommand s).resp = s.resp := rfl

@[simp] theorem respond_keyv (r : Response) : (respond r s).keyv = s.keyv := rfl
@[simp] theorem respond_err (r : Response) : (respond r s).err = s.err := rfl
@[simp] theorem respond_cause (r : Response) : (respond r s).cause = s.cause := rfl
@[simp] theorem respond_ctr (r : Response) : (respond r s).ctr = s.ctr := rfl
@[simp] theorem respond_seclen (r : Response) : (respond r s).seclen = s.seclen := rfl
@[simp] theorem respond_sec (r : Response) : (respond r s).sec = s.sec := rfl
@[simp] theorem respond_keylen (r : Response) : (respond r s).keylen = s.keylen := rfl
@[simp] theorem respond_key (r : Response) : (respond r s).key = s.key := rfl
@[simp] theorem respond_msg (r : Response) : (respond r s).msg = s.msg := rfl
@[simp] theorem respond_digest (r : Response) : (respond r s).digest = s.digest := rfl
@[simp] theorem respond_p (r : Response) : (respond r s).p = s.p := rfl
@[simp] theorem respond_outlen (r : Response) : (respond r s).outlen = s.outlen := rfl
@[simp] theorem respond_out (r : Response) : (respond r s).out = s.out := rfl
@[simp] theorem respond_pending (r : Response) : (respond r s).pending = s.pending := rfl
@[simp] theorem respond_resp (r : Response) : (respond r s).resp = r := rfl

@[simp] theorem clearBlock_keyv : (clearBlock s).keyv = State.reset.keyv := rfl
@[simp] theorem clearBlock_err : (clearBlock s).err = State.reset.err := rfl
@[simp] theorem clearBlock_cause : (clearBlock s).cause = State.reset.cause := rfl
@[simp] theorem clearBlock_ctr : (clearBlock s).ctr = State.reset.ctr := rfl
@[simp] theorem clearBlock_seclen : (clearBlock s).seclen = State.reset.seclen := rfl
@[simp] theorem clearBlock_sec : (clearBlock s).sec = State.reset.sec := rfl
@[simp] theorem clearBlock_keylen : (clearBlock s).keylen = State.reset.keylen := rfl
@[simp] theorem clearBlock_key : (clearBlock s).key = State.reset.key := rfl
@[simp] theorem clearBlock_msg : (clearBlock s).msg = State.reset.msg := rfl
@[simp] theorem clearBlock_digest : (clearBlock s).digest = State.reset.digest := rfl
@[simp] theorem clearBlock_p : (clearBlock s).p = State.reset.p := rfl
@[simp] theorem clearBlock_outlen : (clearBlock s).outlen = State.reset.outlen := rfl
@[simp] theorem clearBlock_out : (clearBlock s).out = State.reset.out := rfl
@[simp] theorem clearBlock_pending : (clearBlock s).pending = s.pending := rfl
@[simp] theorem clearBlock_resp : (clearBlock s).resp = s.resp := rfl

@[simp] theorem applyReset_keyv : (applyReset s).keyv = State.reset.keyv := rfl
@[simp] theorem applyReset_err : (applyReset s).err = State.reset.err := rfl
@[simp] theorem applyReset_cause : (applyReset s).cause = State.reset.cause := rfl
@[simp] theorem applyReset_ctr : (applyReset s).ctr = State.reset.ctr := rfl
@[simp] theorem applyReset_seclen : (applyReset s).seclen = State.reset.seclen := rfl
@[simp] theorem applyReset_sec : (applyReset s).sec = State.reset.sec := rfl
@[simp] theorem applyReset_keylen : (applyReset s).keylen = State.reset.keylen := rfl
@[simp] theorem applyReset_key : (applyReset s).key = State.reset.key := rfl
@[simp] theorem applyReset_msg : (applyReset s).msg = State.reset.msg := rfl
@[simp] theorem applyReset_digest : (applyReset s).digest = State.reset.digest := rfl
@[simp] theorem applyReset_p : (applyReset s).p = State.reset.p := rfl
@[simp] theorem applyReset_outlen : (applyReset s).outlen = State.reset.outlen := rfl
@[simp] theorem applyReset_out : (applyReset s).out = State.reset.out := rfl
@[simp] theorem applyReset_pending : (applyReset s).pending = s.pending := rfl
@[simp] theorem applyReset_resp : (applyReset s).resp = .none := rfl

@[simp] theorem storeKey_keyv (b : List Byte) : (storeKey b s).keyv = true := rfl
@[simp] theorem storeKey_err (b : List Byte) : (storeKey b s).err = false := rfl
@[simp] theorem storeKey_cause (b : List Byte) : (storeKey b s).cause = .none := rfl
@[simp] theorem storeKey_ctr (b : List Byte) : (storeKey b s).ctr = s.ctr := rfl
@[simp] theorem storeKey_seclen (b : List Byte) : (storeKey b s).seclen = s.seclen := rfl
@[simp] theorem storeKey_sec (b : List Byte) : (storeKey b s).sec = s.sec := rfl
@[simp] theorem storeKey_keylen (b : List Byte) : (storeKey b s).keylen = BitVec.ofNat 8 b.length := rfl
@[simp] theorem storeKey_key (b : List Byte) : (storeKey b s).key = fill 160 b := rfl
@[simp] theorem storeKey_msg (b : List Byte) : (storeKey b s).msg = s.msg := rfl
@[simp] theorem storeKey_digest (b : List Byte) : (storeKey b s).digest = s.digest := rfl
@[simp] theorem storeKey_p (b : List Byte) : (storeKey b s).p = s.p := rfl
@[simp] theorem storeKey_outlen (b : List Byte) : (storeKey b s).outlen = s.outlen := rfl
@[simp] theorem storeKey_out (b : List Byte) : (storeKey b s).out = s.out := rfl
@[simp] theorem storeKey_pending (b : List Byte) : (storeKey b s).pending = s.pending := rfl
@[simp] theorem storeKey_resp (b : List Byte) : (storeKey b s).resp = s.resp := rfl

@[simp] theorem dropKey_keyv (c : Cause) : (dropKey c s).keyv = false := rfl
@[simp] theorem dropKey_err (c : Cause) : (dropKey c s).err = true := rfl
@[simp] theorem dropKey_cause (c : Cause) : (dropKey c s).cause = c := rfl
@[simp] theorem dropKey_ctr (c : Cause) : (dropKey c s).ctr = s.ctr := rfl
@[simp] theorem dropKey_seclen (c : Cause) : (dropKey c s).seclen = s.seclen := rfl
@[simp] theorem dropKey_sec (c : Cause) : (dropKey c s).sec = s.sec := rfl
@[simp] theorem dropKey_keylen (c : Cause) : (dropKey c s).keylen = 0#8 := rfl
@[simp] theorem dropKey_key (c : Cause) : (dropKey c s).key = fill 160 [] := rfl
@[simp] theorem dropKey_msg (c : Cause) : (dropKey c s).msg = s.msg := rfl
@[simp] theorem dropKey_digest (c : Cause) : (dropKey c s).digest = s.digest := rfl
@[simp] theorem dropKey_p (c : Cause) : (dropKey c s).p = s.p := rfl
@[simp] theorem dropKey_outlen (c : Cause) : (dropKey c s).outlen = s.outlen := rfl
@[simp] theorem dropKey_out (c : Cause) : (dropKey c s).out = s.out := rfl
@[simp] theorem dropKey_pending (c : Cause) : (dropKey c s).pending = s.pending := rfl
@[simp] theorem dropKey_resp (c : Cause) : (dropKey c s).resp = s.resp := rfl

@[simp] theorem storeOutput_keyv (b : List Byte) : (storeOutput b s).keyv = s.keyv := rfl
@[simp] theorem storeOutput_err (b : List Byte) : (storeOutput b s).err = s.err := rfl
@[simp] theorem storeOutput_cause (b : List Byte) : (storeOutput b s).cause = s.cause := rfl
@[simp] theorem storeOutput_ctr (b : List Byte) : (storeOutput b s).ctr = s.ctr := rfl
@[simp] theorem storeOutput_seclen (b : List Byte) : (storeOutput b s).seclen = s.seclen := rfl
@[simp] theorem storeOutput_sec (b : List Byte) : (storeOutput b s).sec = s.sec := rfl
@[simp] theorem storeOutput_keylen (b : List Byte) : (storeOutput b s).keylen = s.keylen := rfl
@[simp] theorem storeOutput_key (b : List Byte) : (storeOutput b s).key = s.key := rfl
@[simp] theorem storeOutput_msg (b : List Byte) : (storeOutput b s).msg = s.msg := rfl
@[simp] theorem storeOutput_digest (b : List Byte) : (storeOutput b s).digest = s.digest := rfl
@[simp] theorem storeOutput_p (b : List Byte) : (storeOutput b s).p = s.p := rfl
@[simp] theorem storeOutput_outlen (b : List Byte) : (storeOutput b s).outlen = BitVec.ofNat 4 b.length := rfl
@[simp] theorem storeOutput_out (b : List Byte) : (storeOutput b s).out = fill 10 b := rfl
@[simp] theorem storeOutput_pending (b : List Byte) : (storeOutput b s).pending = s.pending := rfl
@[simp] theorem storeOutput_resp (b : List Byte) : (storeOutput b s).resp = s.resp := rfl

@[simp] theorem ctrser_keyv : (ctrser s).keyv = s.keyv := rfl
@[simp] theorem ctrser_err : (ctrser s).err = false := rfl
@[simp] theorem ctrser_cause : (ctrser s).cause = .none := rfl
@[simp] theorem ctrser_ctr : (ctrser s).ctr = s.ctr := rfl
@[simp] theorem ctrser_seclen : (ctrser s).seclen = s.seclen := rfl
@[simp] theorem ctrser_sec : (ctrser s).sec = s.sec := rfl
@[simp] theorem ctrser_keylen : (ctrser s).keylen = s.keylen := rfl
@[simp] theorem ctrser_key : (ctrser s).key = s.key := rfl
@[simp] theorem ctrser_msg : (ctrser s).msg = counterMessage s.ctr := rfl
@[simp] theorem ctrser_digest : (ctrser s).digest = s.digest := rfl
@[simp] theorem ctrser_p : (ctrser s).p = s.p := rfl
@[simp] theorem ctrser_outlen : (ctrser s).outlen = s.outlen := rfl
@[simp] theorem ctrser_out : (ctrser s).out = s.out := rfl
@[simp] theorem ctrser_pending : (ctrser s).pending = s.pending := rfl
@[simp] theorem ctrser_resp : (ctrser s).resp = s.resp := rfl

@[simp] theorem dtrunc_keyv : (dtrunc s).keyv = s.keyv := rfl
@[simp] theorem dtrunc_err : (dtrunc s).err = false := rfl
@[simp] theorem dtrunc_cause : (dtrunc s).cause = .none := rfl
@[simp] theorem dtrunc_ctr : (dtrunc s).ctr = s.ctr := rfl
@[simp] theorem dtrunc_seclen : (dtrunc s).seclen = s.seclen := rfl
@[simp] theorem dtrunc_sec : (dtrunc s).sec = s.sec := rfl
@[simp] theorem dtrunc_keylen : (dtrunc s).keylen = s.keylen := rfl
@[simp] theorem dtrunc_key : (dtrunc s).key = s.key := rfl
@[simp] theorem dtrunc_msg : (dtrunc s).msg = s.msg := rfl
@[simp] theorem dtrunc_digest : (dtrunc s).digest = s.digest := rfl
@[simp] theorem dtrunc_p : (dtrunc s).p = truncated s.digest := rfl
@[simp] theorem dtrunc_outlen : (dtrunc s).outlen = s.outlen := rfl
@[simp] theorem dtrunc_out : (dtrunc s).out = s.out := rfl
@[simp] theorem dtrunc_pending : (dtrunc s).pending = s.pending := rfl
@[simp] theorem dtrunc_resp : (dtrunc s).resp = s.resp := rfl

@[simp] theorem decfmt_keyv : (decfmt s).keyv = s.keyv := rfl
@[simp] theorem decfmt_err : (decfmt s).err = false := rfl
@[simp] theorem decfmt_cause : (decfmt s).cause = .none := rfl
@[simp] theorem decfmt_ctr : (decfmt s).ctr = s.ctr := rfl
@[simp] theorem decfmt_seclen : (decfmt s).seclen = s.seclen := rfl
@[simp] theorem decfmt_sec : (decfmt s).sec = s.sec := rfl
@[simp] theorem decfmt_keylen : (decfmt s).keylen = s.keylen := rfl
@[simp] theorem decfmt_key : (decfmt s).key = s.key := rfl
@[simp] theorem decfmt_msg : (decfmt s).msg = s.msg := rfl
@[simp] theorem decfmt_digest : (decfmt s).digest = s.digest := rfl
@[simp] theorem decfmt_p : (decfmt s).p = s.p := rfl
@[simp] theorem decfmt_outlen : (decfmt s).outlen = BitVec.ofNat 4 (decimalString s.p.toNat).length := rfl
@[simp] theorem decfmt_out : (decfmt s).out = fill 10 (decimalString s.p.toNat) := rfl
@[simp] theorem decfmt_pending : (decfmt s).pending = s.pending := rfl
@[simp] theorem decfmt_resp : (decfmt s).resp = s.resp := rfl

end Sys2Proof.Machine
end

