-- ==== Sys2Proof/Laws/Ops.lean ====
section
/-! SUPPORT. What the shared operations do, said once each: filling a buffer, the address map, reading and writing a
register. -/

namespace Sys2Proof.Machine

theorem padTo_eq (n : Nat) (bs : List Byte) : padTo n bs = bs.take n ++ List.replicate (n - bs.length) 0#8 := by
  induction n generalizing bs with
  | zero => simp [padTo]
  | succ n ih => cases bs <;> simp [padTo, ih, List.replicate_succ]

theorem fill_toList (n : Nat) (bs : List Byte) :
    (fill n bs).toList = bs.take n ++ List.replicate (n - bs.length) 0#8 := by
  simp [fill, padTo_eq, Vector.toList]

/-- A buffer holds the bytes it was filled with. -/
theorem fill_toList_take (n : Nat) (bs : List Byte) (h : bs.length ≤ n) : (fill n bs).toList.take bs.length = bs := by
  rw [fill_toList, List.take_of_length_le h]
  simp

theorem fill_getElem (n : Nat) (bs : List Byte) (i : Nat) (h : i < n) : (fill n bs)[i] = bs.getD i 0#8 := by
  have e : (fill n bs)[i] = (fill n bs).toList[i]'(by simpa using h) := by simp
  rw [e]
  simp only [fill_toList]
  rw [List.getElem_append, List.getD_eq_getElem?_getD]
  split
  · rename_i hi
    rw [List.getElem_take, List.getElem?_eq_getElem (by simp at hi; omega)]
    rfl
  · rename_i hi
    rw [List.getElem_replicate, List.getElem?_eq_none (by simp at hi; omega)]
    rfl

@[simp] theorem fill_nil (n : Nat) : fill n [] = Vector.replicate n 0#8 := by
  apply Vector.ext
  intro i hi
  rw [fill_getElem n [] i hi]
  simp

/-- A full buffer is the list it was filled with. -/
theorem fill_toList_full (n : Nat) (bs : List Byte) (h : bs.length = n) : (fill n bs).toList = bs := by
  rw [fill_toList]
  simp [h]

theorem toList_length_le_take (v : Vector Byte n) (k : Nat) : (v.toList.take k).length = min k n := by simp

/-- The address map finds a register at its own address. -/
theorem regAt_addr (r : Reg) : regAt r.addr = some r := by
  cases r with
  | msg i => exact (by decide +kernel : ∀ i : Fin 8, regAt (Reg.msg i).addr = some (.msg i)) i
  | digest i => exact (by decide +kernel : ∀ i : Fin 20, regAt (Reg.digest i).addr = some (.digest i)) i
  | out i => exact (by decide +kernel : ∀ i : Fin 10, regAt (Reg.out i).addr = some (.out i)) i
  | key i => exact (by decide +kernel : ∀ i : Fin 160, regAt (Reg.key i).addr = some (.key i)) i
  | sec i => exact (by decide +kernel : ∀ i : Fin 256, regAt (Reg.sec i).addr = some (.sec i)) i
  | _ => rfl

/-- When a write is not refused at its register (R54 items 4 and 5). -/
theorem writeRefused_eq_false (r : Reg) (v : Word) :
    writeRefused r v = false ↔ r.writable = true ∧ (r = .seclen → v.toNat ≤ 256) := by
  simp only [writeRefused, Bool.or_eq_false_iff, Bool.not_eq_false', Bool.and_eq_false_iff, decide_eq_false_iff_not,
    Nat.not_lt]
  by_cases h : r = .seclen <;> simp [h]

theorem readTarget_addr (r : Reg) : readTarget 4 r.addr = some r := by simp [readTarget, regAt_addr]

theorem writeTarget_addr (r : Reg) (v : Word) (h : writeRefused r v = false) : writeTarget 4 r.addr v = some r := by
  simp [writeTarget, regAt_addr, h]

/-- What a write target says about its register: it is the one at the address, and it may be written. -/
theorem writeTarget_some {size : Nat} {a : Addr} {v : Word} {r : Reg} (h : writeTarget size a v = some r) :
    size = 4 ∧ regAt a = some r ∧ writeRefused r v = false := by
  unfold writeTarget at h
  split at h
  · simp [Option.filter_eq_some_iff] at h
    exact ⟨by assumption, h⟩
  · cases h

/-- A write to a data register leaves the flags, the results and the host's side of the interface alone. -/
theorem storeReg_frame (r : Reg) (v : Word) (s : State) :
    (storeReg r v s).keyv = s.keyv ∧ (storeReg r v s).err = s.err ∧ (storeReg r v s).cause = s.cause ∧
    (storeReg r v s).keylen = s.keylen ∧ (storeReg r v s).key = s.key ∧ (storeReg r v s).outlen = s.outlen ∧
    (storeReg r v s).out = s.out ∧ (storeReg r v s).pending = s.pending ∧ (storeReg r v s).resp = s.resp := by
  cases r <;> simp [storeReg]

end Sys2Proof.Machine
end

