-- ==== Sys2Proof/Laws/Base32.lean ====
section
/-! SUPPORT. The Base32 decoder: lengths, the outcomes of a decode, the bits of a sliced byte. -/

namespace Sys2Proof.Machine

@[simp] theorem symbolsBits_length (vs : List (BitVec 5)) : (symbolsBits vs).length = 5 * vs.length := by
  induction vs with
  | nil => rfl
  | cons v vs ih => simp [symbolsBits, symbolBits, ih]; omega

theorem symbolsBits_append (vs ws : List (BitVec 5)) : symbolsBits (vs ++ ws) = symbolsBits vs ++ symbolsBits ws := by
  induction vs with
  | nil => rfl
  | cons v vs ih => simp [symbolsBits, ih]

@[simp] theorem sliceBytes_length (bits : List Bool) : (sliceBytes bits).length = bits.length / 8 := by
  induction bits using sliceBytes.induct with
  | case1 b7 b6 b5 b4 b3 b2 b1 b0 rest ih => simp [sliceBytes, ih]; omega
  | case2 bits h =>
    have hl : bits.length < 8 := by
      rcases bits with _ | ⟨_, _ | ⟨_, _ | ⟨_, _ | ⟨_, _ | ⟨_, _ | ⟨_, _ | ⟨_, _ | ⟨_, _⟩⟩⟩⟩⟩⟩⟩⟩ <;> simp
      exact (h _ _ _ _ _ _ _ _ _ rfl).elim
    have e : sliceBytes bits = [] := by
      unfold sliceBytes
      split
      · exact absurd rfl (h _ _ _ _ _ _ _ _ _)
      · rfl
    rw [e, Nat.div_eq_of_lt hl]
    rfl

theorem symbolVals_length {cs : List Byte} {vs : List (BitVec 5)} (h : symbolVals cs = some vs) :
    vs.length = cs.length := by
  induction cs generalizing vs with
  | nil => simp [symbolVals] at h; simp [← h]
  | cons c cs ih =>
    unfold symbolVals at h
    split at h
    · rename_i h2
      cases h
      simp [ih h2]
    · cases h

/-- All values are found exactly when each character has one. -/
theorem symbolVals_isSome (cs : List Byte) :
    (symbolVals cs).isSome = true ↔ ∀ c ∈ cs, (symbolVal c).isSome = true := by
  induction cs with
  | nil => simp [symbolVals]
  | cons c cs ih =>
    unfold symbolVals
    cases h1 : symbolVal c <;> cases h2 : symbolVals cs <;> simp_all

theorem stripPads_length (text : List Byte) : (stripPads text).length ≤ text.length := List.length_filter_le _ _

/-- The input string is at most as long as the buffer. -/
theorem secText_length (s : State) : (secText s).length ≤ 256 := by simp [secText]

/-- What a successful decode says: the bytes are the slices of the symbols' bits. -/
theorem decodeSecret_present {text bytes : List Byte} (h : decodeSecret text = .present bytes) :
    ∃ vs, symbolVals (stripPads text) = some vs ∧ bytes = sliceBytes (symbolsBits vs) ∧
      bytes.length = 5 * (stripPads text).length / 8 := by
  unfold decodeSecret at h
  split at h
  · cases h
  split at h
  · cases h
  split at h
  · cases h
  split at h
  · cases h
  · rename_i vs hv
    cases h
    exact ⟨vs, hv, rfl, by simp [symbolVals_length hv]⟩

/-- The key always fits its buffer (R103). -/
theorem decodeSecret_length_le {s : State} {bytes : List Byte} (h : decodeSecret (secText s) = .present bytes) :
    bytes.length ≤ 160 := by
  obtain ⟨_, _, _, hl⟩ := decodeSecret_present h
  have := stripPads_length (secText s)
  have := secText_length s
  omega

/-- What a failed decode says: the cause is one of the four. -/
theorem decodeSecret_absent {text : List Byte} {c : Cause} (h : decodeSecret text = .absent c) :
    c = .empty ∨ c = .padCount ∨ c = .padPlace ∨ c = .badChar := by
  unfold decodeSecret at h
  split at h
  · cases h; simp
  split at h
  · cases h; simp
  split at h
  · cases h; simp
  split at h
  · cases h; simp
  · cases h

/-- `B32DEC` in its two outcomes. -/
theorem b32dec_cases (s : State) :
    (∃ bytes, decodeSecret (secText s) = .present bytes ∧ bytes.length ≤ 160 ∧ b32dec s = storeKey bytes s) ∨
    (∃ c, decodeSecret (secText s) = .absent c ∧ c.code ≠ 0#4 ∧ b32dec s = dropKey c s) := by
  cases h : decodeSecret (secText s) with
  | present bytes => exact .inl ⟨bytes, rfl, decodeSecret_length_le h, by simp [b32dec, h]⟩
  | absent c =>
    refine .inr ⟨c, rfl, ?_, by simp [b32dec, h]⟩
    rcases decodeSecret_absent h with rfl | rfl | rfl | rfl <;> decide

/-- Bit `b` of a byte made of bits, the first most significant. -/
theorem byteOfBits_getLsbD (b7 b6 b5 b4 b3 b2 b1 b0 : Bool) (b : Fin 8) :
    (byteOfBits b7 b6 b5 b4 b3 b2 b1 b0).getLsbD (7 - b.val) = [b7, b6, b5, b4, b3, b2, b1, b0].getD b.val false := by
  revert b b0 b1 b2 b3 b4 b5 b6 b7
  decide +kernel

/-- Bit `b` of byte `j` of a sliced bit string is position `8 j + b` (R93). -/
theorem sliceBytes_bit (bits : List Bool) (j : Nat) (b : Fin 8) (h : j < (sliceBytes bits).length) :
    ((sliceBytes bits).getD j 0#8).getLsbD (7 - b.val) = bits.getD (8 * j + b.val) false := by
  induction bits using sliceBytes.induct generalizing j with
  | case1 b7 b6 b5 b4 b3 b2 b1 b0 rest ih =>
    cases j with
    | zero =>
      simp only [sliceBytes, List.getD_cons_zero, byteOfBits_getLsbD]
      obtain ⟨b, hb⟩ := b
      interval_cases b <;> rfl
    | succ j =>
      simp only [sliceBytes, List.getD_cons_succ]
      rw [ih j (by simpa [sliceBytes] using h)]
      rw [show 8 * (j + 1) + b.val = 8 * j + b.val + 8 by omega]
      rfl
  | case2 bits hn =>
    exfalso
    have e : sliceBytes bits = [] := by
      unfold sliceBytes
      split
      · exact absurd rfl (hn _ _ _ _ _ _ _ _ _)
      · rfl
    simp [e] at h

/-- Position `q` of the bit string is bit `4 - q % 5` of symbol `q / 5` (R93). -/
theorem symbolsBits_bit (vs : List (BitVec 5)) (q : Nat) (h : q < 5 * vs.length) :
    (symbolsBits vs).getD q false = (vs.getD (q / 5) 0#5).getLsbD (4 - q % 5) := by
  induction vs generalizing q with
  | nil => simp at h
  | cons v vs ih =>
    by_cases hq : q < 5
    · interval_cases q <;> simp [symbolsBits, symbolBits, BitVec.getLsbD_eq_getElem]
    · obtain ⟨q', rfl⟩ : ∃ q', q = q' + 5 := ⟨q - 5, by omega⟩
      rw [show (q' + 5) / 5 = q' / 5 + 1 by omega, show (q' + 5) % 5 = q' % 5 by omega]
      simp only [List.getD_cons_succ]
      rw [← ih q' (by simp at h; omega)]
      rfl

/-- Slicing a bit string of whole bytes and what follows it. -/
theorem sliceBytes_append (a b : List Bool) (h : a.length % 8 = 0) :
    sliceBytes (a ++ b) = sliceBytes a ++ sliceBytes b := by
  induction a using sliceBytes.induct with
  | case1 b7 b6 b5 b4 b3 b2 b1 b0 rest ih =>
    simp only [List.cons_append, sliceBytes]
    rw [ih (by simp at h; omega)]
  | case2 a hn =>
    have hl : a.length < 8 := by
      rcases a with _ | ⟨_, _ | ⟨_, _ | ⟨_, _ | ⟨_, _ | ⟨_, _ | ⟨_, _ | ⟨_, _ | ⟨_, _⟩⟩⟩⟩⟩⟩⟩⟩ <;> simp
      exact (hn _ _ _ _ _ _ _ _ _ rfl).elim
    have e : a = [] := List.eq_nil_of_length_eq_zero (by omega)
    subst e
    simp [sliceBytes]

/-- The values found are those of the characters, place by place (R98). -/
theorem symbolVals_getD {cs : List Byte} {vs : List (BitVec 5)} (h : symbolVals cs = some vs) (q : Nat)
    (hq : q < cs.length) : vs.getD q 0#5 = (symbolVal (cs.getD q 0#8)).getD 0#5 := by
  induction cs generalizing vs q with
  | nil => simp at hq
  | cons c cs ih =>
    unfold symbolVals at h
    split at h
    · rename_i h1 h2
      cases h
      cases q with
      | zero => simp [h1]
      | succ q => simpa using ih h2 q (by simpa using hq)
    · cases h

/-- `DecodeSecret` once the first three checks have passed (R93). -/
theorem decodeSecret_passed {text : List Byte} (h1 : text ≠ []) (h2 : padCountValid (padCountOf text) = true)
    (h3 : lastArePads text (padCountOf text) = true) :
    decodeSecret text =
      match symbolVals (stripPads text) with
      | none => .absent .badChar
      | some vs => .present (sliceBytes (symbolsBits vs)) := by
  exact (if_neg h1).trans ((if_neg (by simp [h2])).trans (if_neg (by simp [h3])))

end Sys2Proof.Machine
end

