-- ==== Sys2Proof/Laws/Format.lean ====
section
/-! SUPPORT. Truncation and formatting: the window as a number, the digits and the length of an output. -/

namespace Sys2Proof.Machine

/-- The offset is the low nibble as a remainder. -/
theorem truncOffset_val (d : Vector Byte 20) : (truncOffset d).val = d[19].toNat % 16 := by
  simp only [truncOffset, BitVec.toNat_and]
  exact Nat.and_two_pow_sub_one_eq_mod d[19].toNat 4

/-- `be32` as a number (00_scope.md R6). -/
theorem be32_toNat (b0 b1 b2 b3 : Byte) :
    (be32 b0 b1 b2 b3).toNat = b0.toNat * 2 ^ 24 + b1.toNat * 2 ^ 16 + b2.toNat * 2 ^ 8 + b3.toNat := by
  simp only [be32, BitVec.toNat_append]
  have h1 := b1.isLt
  have h2 := b2.isLt
  have h3 := b3.isLt
  rw [← Nat.shiftLeft_add_eq_or_of_lt h1, ← Nat.shiftLeft_add_eq_or_of_lt h2, ← Nat.shiftLeft_add_eq_or_of_lt h3]
  simp only [Nat.shiftLeft_eq]
  omega

/-- The truncated value: the window modulo `2^31` (R140). -/
theorem truncated_toNat (d : Vector Byte 20) :
    (truncated d).toNat = (digestWindow d (truncOffset d)).toNat % 2 ^ 31 := by
  simp only [truncated, BitVec.toNat_setWidth, BitVec.toNat_and]
  have := Nat.and_two_pow_sub_one_eq_mod (digestWindow d (truncOffset d)).toNat 31
  norm_num at this ⊢
  rw [this]
  omega

/-- The digit count is right for every number the fuel reaches (R142). -/
theorem digitCount_spec (fuel n : Nat) (h : n < 10 ^ (fuel + 1)) :
    n < 10 ^ digitCount fuel n ∧ 1 ≤ digitCount fuel n ∧ digitCount fuel n ≤ fuel + 1 ∧
      (n ≠ 0 → 10 ^ (digitCount fuel n - 1) ≤ n) ∧ (n = 0 → digitCount fuel n = 1) := by
  induction fuel generalizing n with
  | zero =>
    simp [digitCount] at h ⊢
    omega
  | succ fuel ih =>
    unfold digitCount
    split
    · refine ⟨by omega, by omega, by omega, fun _ => by simp; omega, fun _ => rfl⟩
    · obtain ⟨h1, h2, h3, h4, -⟩ := ih (n / 10) (by rw [Nat.pow_succ] at h; omega)
      have h5 := h4 (by omega)
      refine ⟨?_, by omega, by omega, fun _ => ?_, by omega⟩
      · rw [Nat.pow_succ]; omega
      · rw [Nat.add_sub_cancel]
        obtain ⟨k, hk⟩ : ∃ k, digitCount fuel (n / 10) = k + 1 := ⟨_, (Nat.sub_add_cancel h2).symm⟩
        rw [hk] at h5 ⊢
        rw [Nat.add_sub_cancel] at h5
        rw [Nat.pow_succ]
        omega

theorem decimalString_length (n : Nat) : (decimalString n).length = outputLength n := by simp [decimalString]

/-- A 31-bit value gives six to ten characters (R142, R146). -/
theorem outputLength_bounds (p : BitVec 31) : 6 ≤ outputLength p.toNat ∧ outputLength p.toNat ≤ 10 := by
  have h := digitCount_spec 9 p.toNat (by have := p.isLt; omega)
  simp only [outputLength, config_digits]
  omega

/-- The output is never cut (R143): the number fits its characters. -/
theorem lt_pow_outputLength (p : BitVec 31) : p.toNat < 10 ^ outputLength p.toNat := by
  have h := digitCount_spec 9 p.toNat (by have := p.isLt; omega)
  exact Nat.lt_of_lt_of_le h.1 (Nat.pow_le_pow_right (by decide) (Nat.le_max_right _ _))

theorem digitChar_toNat (n len i : Nat) : (digitChar n len i).toNat = 0x30 + n / 10 ^ (len - 1 - i) % 10 := by
  simp only [digitChar, BitVec.toNat_ofNat]
  omega

theorem decimalString_getElem (n i : Nat) (h : i < (decimalString n).length) :
    (decimalString n)[i] = digitChar n (outputLength n) i := by
  simp [decimalString]

/-- Every character of an output is a digit (R142). -/
theorem decimalString_digit (n : Nat) (c : Byte) (h : c ∈ decimalString n) : 0x30 ≤ c.toNat ∧ c.toNat ≤ 0x39 := by
  simp only [decimalString, List.mem_map] at h
  obtain ⟨i, -, rfl⟩ := h
  rw [digitChar_toNat]
  omega

/-- The output of `DECFMT` is its string (R142). -/
theorem decfmt_outText (s : State) : outText (decfmt s) = decimalString s.p.toNat := by
  have hb := outputLength_bounds s.p
  have hl := decimalString_length s.p.toNat
  simp only [outText, decfmt_out, decfmt_outlen, BitVec.toNat_ofNat]
  rw [Nat.mod_eq_of_lt (by omega)]
  exact fill_toList_take 10 _ (by omega)

theorem decfmt_outlen_toNat (s : State) : (decfmt s).outlen.toNat = outputLength s.p.toNat := by
  have h := outputLength_bounds s.p
  rw [decfmt_outlen, decimalString_length, BitVec.toNat_ofNat]
  omega

/-- Each character of the output buffer after `DECFMT` (R142). -/
theorem decfmt_out_getElem (s : State) (i : Fin 10) :
    (decfmt s).out[i] =
      if i.val < outputLength s.p.toNat then digitChar s.p.toNat (outputLength s.p.toNat) i.val else 0#8 := by
  rw [decfmt_out]
  have e : (fill 10 (decimalString s.p.toNat))[i] = _ := fill_getElem 10 _ i.val i.isLt
  rw [e]
  split
  · rename_i h
    rw [List.getD_eq_getElem?_getD, List.getElem?_eq_getElem (by rw [decimalString_length]; exact h),
      decimalString_getElem]
    rfl
  · rw [List.getD_eq_default _ _ (by rw [decimalString_length]; omega)]

end Sys2Proof.Machine
end

