-- ==== Sys2Proof/Laws/Sha1.lean ====
section
/-! SUPPORT. SHA-1 and HMAC: lengths, padding, the schedule. -/

namespace Sys2Proof.Machine

@[simp] theorem beBytes_length (n v : Nat) : (beBytes n v).length = n := by
  induction n with
  | zero => rfl
  | succ n ih => simp [beBytes, ih]

@[simp] theorem hashBytes_length (h : Hash) : (hashBytes h).length = 20 := by simp [hashBytes]

@[simp] theorem sha1_length (b : List Byte) : (sha1 b).length = 20 := by simp [sha1]

@[simp] theorem hmacSha1_length (k m : List Byte) : (hmacSha1 k m).length = 20 := by simp [hmacSha1]

/-- The key block is one block long (R119). -/
@[simp] theorem hmacKeyBlock_length (k : List Byte) : (hmacKeyBlock k).length = 64 := by
  unfold hmacKeyBlock
  by_cases h : Config.blockLen < k.length
  · simp only [config_blockLen] at h ⊢
    simp [h]
  · simp only [config_blockLen] at h ⊢
    simp [h]
    omega

/-- A key of at most a block is used whole (R120). -/
theorem hmacKeyBlock_short (k : List Byte) (h : k.length ≤ 64) :
    hmacKeyBlock k = k ++ List.replicate (64 - k.length) 0#8 := by
  simp [hmacKeyBlock, Nat.not_lt.mpr h]

/-- A longer key is hashed (R120). -/
theorem hmacKeyBlock_long (k : List Byte) (h : 64 < k.length) :
    hmacKeyBlock k = sha1 k ++ List.replicate 44 0#8 := by
  simp [hmacKeyBlock, h]

/-- The HMAC depends on the key through its key block only (R119). -/
theorem hmacSha1_congr {k k' : List Byte} (m : List Byte) (h : hmacKeyBlock k = hmacKeyBlock k') :
    hmacSha1 k m = hmacSha1 k' m := by
  simp [hmacSha1, h]

@[simp] theorem sha1Pad_length (b : List Byte) :
    (sha1Pad b).length = b.length + 1 + sha1ZeroCount b.length + 8 := by
  simp [sha1Pad]; omega

theorem sha1ZeroCount_lt (n : Nat) : sha1ZeroCount n < 64 := by unfold sha1ZeroCount; omega

theorem sha1ZeroCount_mod (n : Nat) : (n + 1 + sha1ZeroCount n) % 64 = 56 := by unfold sha1ZeroCount; omega

theorem extendW_length (n : Nat) (ws : List Word) : (extendW n ws).length = n + ws.length := by
  induction n generalizing ws with
  | zero => simp [extendW]
  | succ n ih => simp [extendW, ih]; omega

/-- The schedule extension keeps the words it began with, behind the new ones (R114). -/
theorem extendW_old (n : Nat) (ws : List Word) (k : Nat) (h : k < ws.length) :
    (extendW n ws).getD (n + k) 0 = ws.getD k 0 := by
  induction n generalizing ws k with
  | zero => simp [extendW]
  | succ n ih =>
    rw [extendW, show n + 1 + k = n + (k + 1) by omega, ih _ _ (by simp; omega)]
    rfl

/-- The digest buffer after `HMAC` holds the HMAC (R121). -/
theorem hmac_digest_toList (k m : List Byte) : (fill 20 (hmacSha1 k m)).toList = hmacSha1 k m :=
  fill_toList_full 20 _ (hmacSha1_length k m)

/-- `HMAC` in its two outcomes (R121). -/
theorem hmac_cases (s : State) :
    (s.keyv = true ∧ hmac s =
      { s with digest := fill 20 (hmacSha1 (keyBytes s) (msgBytes s)), err := false, cause := .none }) ∨
    (s.keyv = false ∧ hmac s = { s with err := true, cause := .noKey }) := by
  cases h : s.keyv with
  | true => exact .inl ⟨rfl, by simp [hmac, h, succeed]⟩
  | false => exact .inr ⟨rfl, by simp [hmac, h, failWith]⟩

end Sys2Proof.Machine
end

