-- ==== Sys2Proof/Laws/Exec.lean ====
section
/-! SUPPORT. What each command does, said once: its next state, and `HOTP` in its two outcomes. -/

namespace Sys2Proof.Machine

@[simp] theorem exec_b32dec (s : State) : exec .b32dec s = .next (b32dec s) := rfl
@[simp] theorem exec_ctrser (s : State) : exec .ctrser s = .next (ctrser s) := rfl
@[simp] theorem exec_hmac (s : State) : exec .hmac s = .next (hmac s) := rfl
@[simp] theorem exec_dtrunc (s : State) : exec .dtrunc s = .next (dtrunc s) := rfl
@[simp] theorem exec_decfmt (s : State) : exec .decfmt s = .next (decfmt s) := rfl
@[simp] theorem exec_hotp (s : State) : exec .hotp s = .next (hotp s) := rfl
@[simp] theorem exec_clr (s : State) : exec .clr s = .next (clearBlock s) := rfl

/-- The key bytes after a successful decode are the decoded bytes (R105). -/
theorem keyBytes_storeKey (bytes : List Byte) (s : State) (h : bytes.length ≤ 160) :
    keyBytes (storeKey bytes s) = bytes := by
  simp only [keyBytes, storeKey_key, storeKey_keylen, BitVec.toNat_ofNat]
  rw [Nat.mod_eq_of_lt (by omega)]
  exact fill_toList_take 160 bytes h

/-- `HOTP` after a successful decode: every field of its next state (R160). -/
theorem hotp_present {s : State} {key : List Byte} (h : decodeSecret (secText s) = .present key) :
    hotp s =
      let d := fill 20 (hmacSha1 key (counterMessage s.ctr).toList)
      let text := decimalString (truncated d).toNat
      { s with
        key := fill 160 key, keylen := BitVec.ofNat 8 key.length, keyv := true, msg := counterMessage s.ctr,
        digest := d, p := truncated d, out := fill 10 text, outlen := BitVec.ofNat 4 text.length,
        err := false, cause := .none } := by
  have hd : b32dec s = storeKey key s := by simp [b32dec, h]
  have hk := keyBytes_storeKey key s (decodeSecret_length_le h)
  have hk' : keyBytes (ctrser (storeKey key s)) = key := hk
  have hh : hmac (ctrser (storeKey key s)) =
      { ctrser (storeKey key s) with
        digest := fill 20 (hmacSha1 key (counterMessage s.ctr).toList), err := false, cause := .none } := by
    rcases hmac_cases (ctrser (storeKey key s)) with ⟨-, e⟩ | ⟨e, -⟩
    · rw [e, hk']
      rfl
    · simp at e
  simp only [hotp, hd, storeKey_keyv, if_true, hh]
  rfl

/-- `HOTP` after a failed decode: no key, the empty string, nothing else (R160, R162). -/
theorem hotp_absent {s : State} {c : Cause} (h : decodeSecret (secText s) = .absent c) :
    hotp s = storeOutput [] (dropKey c s) := by
  have hd : b32dec s = dropKey c s := by simp [b32dec, h]
  simp [hotp, hd]

/-- `HOTP` in its two outcomes. -/
theorem hotp_cases (s : State) :
    (∃ key, decodeSecret (secText s) = .present key ∧ key.length ≤ 160 ∧
      hotp s = decfmt (dtrunc (hmac (ctrser (storeKey key s))))) ∨
    (∃ c, decodeSecret (secText s) = .absent c ∧ c.code ≠ 0#4 ∧ hotp s = storeOutput [] (dropKey c s)) := by
  rcases b32dec_cases s with ⟨key, h, hl, e⟩ | ⟨c, h, hc, -⟩
  · exact .inl ⟨key, h, hl, by simp [hotp, e]⟩
  · exact .inr ⟨c, h, hc, hotp_absent h⟩

end Sys2Proof.Machine
end

