-- ==== Sys2Proof/Laws/Bus.lean ====
section
/-! SUPPORT. What a step can do, said once: one equation per kind of event, and the inversion of a transaction. -/

namespace Sys2Proof.Machine

theorem step_idle {s : State} (h : s.pending = []) : step s = .next s := by simp [step, deliverNext, h]

theorem step_transact {s : State} {t : Transaction} {rest : List Event} (h : s.pending = .transact t :: rest) :
    step s = transact t { s with pending := rest } := by
  simp [step, deliverNext, h, perform]

theorem step_reset {s : State} {d : Option Transaction} {rest : List Event} (h : s.pending = .reset d :: rest) :
    step s = .next (applyReset { s with pending := rest }) := by
  simp [step, deliverNext, h, perform]

/-- A read of a register's own address (R52). -/
theorem regRead_addr (r : Reg) (s : State) :
    regRead 4 r.addr s = .next (respond (.data (readReg s r)) s) := by
  simp [regRead, readTarget_addr]

/-- A write to a data register's own address (R53). -/
theorem regWrite_addr (r : Reg) (v : Word) (s : State) (hr : r ≠ .cmd) (h : writeRefused r v = false) :
    regWrite 4 r.addr v s = .next (storeReg r v (respond .ok s)) := by
  simp [regWrite, writeTarget_addr r v h, hr]

/-- A write to `CMD` (R53, R71). -/
theorem regWrite_cmd (v : Word) (s : State) : regWrite 4 (Reg.addr .cmd) v s = runCommand v (respond .ok s) := by
  simp [regWrite, writeTarget_addr .cmd v rfl]

theorem decode_encode (i : Instr) : decode (encode i) = .ok i := by cases i <;> rfl

/-- A word that decodes to a command is that command's word (R71). -/
theorem decode_ok {w : Word} {i : Instr} (h : decode w = .ok i) :
    w.extractLsb' 8 24 = 0#24 ∧ w.extractLsb' 0 8 = opcodeOf i := by
  unfold decode at h
  split at h
  · rename_i hm
    refine ⟨hm, ?_⟩
    split at h
    · rename_i j hj
      cases h
      apply BitVec.eq_of_toNat_eq
      unfold decodeOpcode at hj
      split at hj <;> first | (cases hj; done) | (rename_i hn; cases hj; rw [hn]; rfl)
    · cases h
  · cases h

/-- What running a command word can do: a command, or the illegal command. -/
theorem runCommand_cases (w : Word) (s : State) :
    (∃ i, decode w = .ok i ∧ runCommand w s = exec i s) ∨
    ((∀ i, decode w ≠ .ok i) ∧ runCommand w s = .next (illegalCommand s)) := by
  cases h : decode w with
  | ok i => exact .inl ⟨i, rfl, by simp [runCommand, h]⟩
  | error e => exact .inr ⟨by simp, by simp [runCommand, h]⟩

/-- Every command answers a next state. -/
theorem exec_next (i : Instr) (s : State) : ∃ t, exec i s = .next t := by cases i <;> exact ⟨_, rfl⟩

/-- What a transaction can do (R52 to R54). -/
theorem transact_cases (x : Transaction) (s : State) :
    transact x s = .next (respond .error s) ∨
    (∃ r, transact x s = .next (respond (.data (readReg s r)) s)) ∨
    (∃ a v r, x = .regWrite 4 a v ∧ regAt a = some r ∧ r ≠ .cmd ∧ writeRefused r v = false ∧
      transact x s = .next (storeReg r v (respond .ok s))) ∨
    (∃ a v, x = .regWrite 4 a v ∧ regAt a = some .cmd ∧ transact x s = runCommand v (respond .ok s)) := by
  cases x with
  | regRead size a =>
    cases h : readTarget size a with
    | none => exact .inl (by simp [transact, regRead, h])
    | some r => exact .inr (.inl ⟨r, by simp [transact, regRead, h]⟩)
  | regWrite size a v =>
    cases h : writeTarget size a v with
    | none => exact .inl (by simp [transact, regWrite, h])
    | some r =>
      obtain ⟨rfl, ha, hw⟩ := writeTarget_some h
      by_cases hr : r = .cmd
      · subst hr
        exact .inr (.inr (.inr ⟨a, v, rfl, ha, by simp [transact, regWrite, h]⟩))
      · exact .inr (.inr (.inl ⟨a, v, r, rfl, ha, hr, hw, by simp [transact, regWrite, h, hr]⟩))

/-- Every transaction answers a next state. -/
theorem transact_next (x : Transaction) (s : State) : ∃ t, transact x s = .next t := by
  rcases transact_cases x s with e | ⟨_, e⟩ | ⟨_, _, _, _, _, _, _, e⟩ | ⟨_, v, _, _, e⟩
  · exact ⟨_, e⟩
  · exact ⟨_, e⟩
  · exact ⟨_, e⟩
  · rcases runCommand_cases v (respond .ok s) with ⟨i, _, h⟩ | ⟨_, h⟩
    · obtain ⟨t, ht⟩ := exec_next i (respond .ok s)
      exact ⟨t, e.trans (h.trans ht)⟩
    · exact ⟨_, e.trans h⟩

/-- A command leaves the host's side of the interface alone. -/
theorem exec_host_side {i : Instr} {s t : State} (h : exec i s = .next t) :
    t.resp = s.resp ∧ t.pending = s.pending := by
  cases i <;> simp at h <;> subst h
  · rcases b32dec_cases s with ⟨_, _, _, e⟩ | ⟨_, _, _, e⟩ <;> rw [e] <;> simp
  · simp
  · rcases hmac_cases s with ⟨_, e⟩ | ⟨_, e⟩ <;> rw [e] <;> simp
  · simp
  · simp
  · rcases hotp_cases s with ⟨k, _, _, e⟩ | ⟨_, _, _, e⟩ <;> rw [e] <;> simp
    rcases hmac_cases (ctrser (storeKey k s)) with ⟨_, e⟩ | ⟨_, e⟩ <;> rw [e] <;> simp
  · simp

/-- Running a command word leaves the host's side of the interface alone. -/
theorem runCommand_host_side {w : Word} {s t : State} (h : runCommand w s = .next t) :
    t.resp = s.resp ∧ t.pending = s.pending := by
  rcases runCommand_cases w s with ⟨i, -, e⟩ | ⟨-, e⟩
  · exact exec_host_side (e.symm.trans h)
  · rw [e] at h
    cases h
    simp

theorem readReg_respond (q : Response) (s : State) (r : Reg) : readReg (respond q s) r = readReg s r := by
  cases r <;> rfl

theorem statusWord_storeReg (r : Reg) (v : Word) (s : State) : statusWord (storeReg r v s) = statusWord s := by
  cases r <;> rfl

end Sys2Proof.Machine
end

