-- ==== Sys2Proof/Laws/Invariant.lean ====
section
/-! SUPPORT. The shared operations keep the invariant of 10_state.md R33, one lemma each. -/

namespace Sys2Proof.Safety

open Sys2Proof.Machine

/-- Items 6, 7 (the bound) and 8 of R33 hold in every state. -/
theorem inv_always (s : State) :
    s.p.toNat < 2 ^ 31 ∧ s.cause.code.toNat ≤ 6 ∧ statusWord s &&& 0xFFFFFF0C#32 = 0#32 := by
  refine ⟨s.p.isLt, by cases s.cause <;> decide, ?_⟩
  unfold statusWord
  generalize s.cause.code = c
  generalize s.err = e
  generalize s.keyv = k
  revert c e k
  decide +kernel

theorem inv_succeed {s : State} (h : Inv s) : Inv (succeed s) :=
  { h with
    err_iff_cause := by simp [Cause.code]
    cause_le := (inv_always _).2.1
    status_reserved := (inv_always _).2.2 }

theorem inv_failWith {s : State} (h : Inv s) (c : Cause) (hc : c.code ≠ 0#4) : Inv (failWith c s) :=
  { h with
    err_iff_cause := by simp [hc]
    cause_le := (inv_always _).2.1
    status_reserved := (inv_always _).2.2 }

theorem inv_respond {s : State} (h : Inv s) (r : Response) : Inv (respond r s) :=
  { h with status_reserved := (inv_always _).2.2 }

theorem inv_pending {s : State} (h : Inv s) (l : List Event) : Inv { s with pending := l } :=
  { h with status_reserved := (inv_always _).2.2 }

theorem inv_storeKey {s : State} (h : Inv s) (b : List Byte) (hb : b.length ≤ 160) : Inv (storeKey b s) := by
  have hl : (BitVec.ofNat 8 b.length).toNat = b.length := by
    rw [BitVec.toNat_ofNat]
    omega
  exact
    { h with
      keylen_le := by simp only [storeKey_keylen, hl]; exact hb
      key_tail := by
        intro i hi
        rw [storeKey_keylen, hl] at hi
        exact (fill_getElem 160 b i.val i.isLt).trans (List.getD_eq_default _ _ hi)
      no_key := by simp
      err_iff_cause := by simp [Cause.code]
      cause_le := (inv_always _).2.1
      status_reserved := (inv_always _).2.2 }

theorem inv_dropKey {s : State} (h : Inv s) (c : Cause) (hc : c.code ≠ 0#4) : Inv (dropKey c s) :=
  { h with
    keylen_le := by simp
    key_tail := fun i _ => fill_getElem 160 [] i.val i.isLt
    no_key := by simp
    err_iff_cause := by simp [hc]
    cause_le := (inv_always _).2.1
    status_reserved := (inv_always _).2.2 }

theorem inv_storeOutput_nil {s : State} (h : Inv s) : Inv (storeOutput [] s) :=
  { h with
    outlen_legal := .inl rfl
    out_tail := fun i _ => fill_getElem 10 [] i.val i.isLt
    out_digits := fun i hi => by simp at hi
    no_leading_zero := fun hi => by simp at hi
    status_reserved := (inv_always _).2.2 }

theorem inv_storeReg {s : State} (h : Inv s) (r : Reg) (v : Word) (hw : writeRefused r v = false) :
    Inv (storeReg r v s) := by
  rw [writeRefused_eq_false] at hw
  cases r with
  | seclen =>
    refine { h with seclen_le := ?_, status_reserved := (inv_always _).2.2 }
    have := hw.2 rfl
    simp only [storeReg, BitVec.toNat_setWidth]
    omega
  | p => exact { h with p_lt := (inv_always _).1, status_reserved := (inv_always _).2.2 }
  | _ => exact { h with status_reserved := (inv_always _).2.2 }

end Sys2Proof.Safety
end

