-- ==== Sys2Proof/Laws/PerInstr.lean ====
section
/-! SUPPORT. The statement made for each instruction by name: it is well formed, its word is its opcode with 24 zero
bits above it, and the word decodes to it (spec 30_encoding.md R70, R72). -/

namespace Sys2Proof.Laws.Encoding

def Statement (i : Instr) : Prop :=
  i.wf = true ∧ encode i = (opcodeOf i).setWidth 32 ∧ decode (encode i) = .ok i

theorem b32dec : Statement .b32dec := ⟨rfl, rfl, rfl⟩
theorem ctrser : Statement .ctrser := ⟨rfl, rfl, rfl⟩
theorem hmac : Statement .hmac := ⟨rfl, rfl, rfl⟩
theorem dtrunc : Statement .dtrunc := ⟨rfl, rfl, rfl⟩
theorem decfmt : Statement .decfmt := ⟨rfl, rfl, rfl⟩
theorem hotp : Statement .hotp := ⟨rfl, rfl, rfl⟩
theorem clr : Statement .clr := ⟨rfl, rfl, rfl⟩

end Sys2Proof.Laws.Encoding
end

