-- ==== Sys2Proof/Laws/Script.lean ====
section
/-! SUPPORT. Running scripts line by line: sequencing, a write, a command, reads of consecutive elements. -/

namespace Sys2Proof.Machine

/-- When a number is data of a transaction. -/
theorem wordOfNat_eq_none (n : Nat) : wordOfNat n = none ↔ 2 ^ 32 ≤ n := by
  unfold wordOfNat
  split <;> simp_all

/-- `LDSEC` of a text that fits the buffer (R78). -/
theorem ldsecLines_fits {text : List Byte} (h : text.length ≤ 256) :
    ldsecLines text =
      some (writeElements 0x400 0 (text.map (·.setWidth 32)) ++
        [.wr (Reg.addr .seclen) (BitVec.ofNat 32 text.length)]) := if_pos h

theorem ldsecLines_eq_none (text : List Byte) : ldsecLines text = none ↔ 256 < text.length := by
  unfold ldsecLines Config.nSec
  split <;> simp <;> omega

/-- The lines that cannot be expressed (R78, 43_otp_sequence.md R164). -/
theorem expand_eq_none (l : Line) : l.expand = none ↔
    (∃ text, 256 < text.length ∧ (l = .ldsec text ∨ l = .decodesecret text ∨ (∃ c, l = .gethotp text c) ∨
      ∃ t, l = .gettotp text t)) ∨ (∃ text t, l = .gettotp text t ∧ 2 ^ 32 ≤ t / 30) := by
  cases l with
  | gettotp text t =>
    cases h : wordOfNat (t / 30) with
    | none =>
      simp only [Line.expand, totpCounter, Config.timeStep, h, Option.bind_none, true_iff]
      exact .inr ⟨text, t, rfl, (wordOfNat_eq_none _).1 h⟩
    | some c =>
      have hn : ¬ 2 ^ 32 ≤ t / 30 := fun e => by simp [(wordOfNat_eq_none _).2 e] at h
      simp only [Line.expand, totpCounter, Config.timeStep, h, Option.bind_some, gethotpLines, Option.map_eq_none_iff,
        ldsecLines_eq_none]
      constructor
      · exact fun e => .inl ⟨text, e, .inr (.inr (.inr ⟨t, rfl⟩))⟩
      · rintro (⟨_, e, he⟩ | ⟨_, _, he, e⟩)
        · simp at he
          rwa [he]
        · cases he
          exact absurd e hn
  | _ => simp [Line.expand, decodesecretLines, gethotpLines, ldsecLines_eq_none]

/-- A script expands if each of its lines does (R78). -/
theorem expandScript_eq_none (lines : List Line) : expandScript lines = none ↔ ∃ l ∈ lines, l.expand = none := by
  induction lines with
  | nil => simp [expandScript]
  | cons l ls ih => cases h : l.expand <;> cases h' : expandScript ls <;> simp_all [expandScript]

/-- A script of one line (R76). -/
theorem runScript_single {l : Line} {base : List BaseLine} (h : l.expand = some base) (s : State) :
    runScript [l] s = some (runBaseLines base (s, [])) := by
  simp [runScript, expandScript, h]

theorem runBaseLines_append (a b : List BaseLine) (acc : State × List Response) :
    runBaseLines (a ++ b) acc =
      match runBaseLines a acc with
      | .next acc' => runBaseLines b acc'
      | .fault r => .fault r
      | .refused r => .refused r := by
  induction a generalizing acc with
  | nil => rfl
  | cons l ls ih =>
    simp only [List.cons_append, runBaseLines]
    cases transactAll (l.transactions acc.1) acc <;> simp [ih]

/-- What transactions in order can do: they end in a next state, and the responses before them make no difference. -/
theorem transactAll_next (ts : List Transaction) (s : State) :
    ∃ t log, ∀ before, transactAll ts (s, before) = .next (t, before ++ log) := by
  induction ts generalizing s with
  | nil => exact ⟨s, [], by simp [transactAll]⟩
  | cons x ts ih =>
    obtain ⟨u, hu⟩ := transact_next x s
    obtain ⟨t, log, h⟩ := ih u
    exact ⟨t, u.resp :: log, by simp [transactAll, hu, h]⟩

/-- What base lines in order can do: they end in a next state, and the responses before them make no difference (R76). -/
theorem runBaseLines_next (ls : List BaseLine) (s : State) :
    ∃ t log, ∀ before, runBaseLines ls (s, before) = .next (t, before ++ log) := by
  induction ls generalizing s with
  | nil => exact ⟨s, [], by simp [runBaseLines]⟩
  | cons l ls ih =>
    obtain ⟨u, log, hu⟩ := transactAll_next (l.transactions s) s
    obtain ⟨t, log', h⟩ := ih u
    exact ⟨t, log ++ log', by simp [runBaseLines, hu, h]⟩

/-- A `WR` line to a data register (R76). -/
theorem runBaseLines_wr (r : Reg) (v : Word) (hr : r ≠ .cmd) (hw : writeRefused r v = false) (ls : List BaseLine)
    (s : State) (log : List Response) :
    runBaseLines (.wr r.addr v :: ls) (s, log) = runBaseLines ls (storeReg r v (respond .ok s), log ++ [.ok]) := by
  have e : transact (.regWrite 4 r.addr v) s = _ := regWrite_addr r v s hr hw
  simp only [runBaseLines, BaseLine.transactions, transactAll, e]
  simp [storeReg_frame]

/-- A command line (R78). -/
theorem runBaseLines_command (i : Instr) (ls : List BaseLine) {s t : State} (log : List Response)
    (h : exec i (respond .ok s) = .next t) :
    runBaseLines (cmdLine i :: ls) (s, log) = runBaseLines ls (t, log ++ [.ok]) := by
  have e : transact (.regWrite 4 (Reg.addr .cmd) (encode i)) s = .next t := by
    refine (regWrite_cmd _ s).trans ?_
    simp [runCommand, decode_encode, h]
  simp only [cmdLine, runBaseLines, BaseLine.transactions, transactAll, e]
  rw [(exec_host_side h).1]
  rfl

/-- A read of a register, whatever the response before it was (R52). -/
theorem transact_read (r : Reg) (s : State) (q : Response) :
    transact (.regRead 4 r.addr) (respond q s) = .next (respond (.data (readReg s r)) s) := by
  refine (regRead_addr r (respond q s)).trans ?_
  rw [readReg_respond]
  rfl

/-- Reads of the first `n` elements of a buffer answer them in order (R78). -/
theorem transactAll_reads (n base : Nat) (f : Nat → Word) (s : State) (log : List Response)
    (h : ∀ i < n, ∀ q, transact (.regRead 4 (elementAddr base i)) (respond q s) = .next (respond (.data (f i)) s)) :
    ∃ t, transactAll (readElements base n) (s, log) = .next (t, log ++ (List.range n).map fun i => .data (f i)) := by
  have hl : ∀ l : List Nat, (∀ i ∈ l, i < n) → ∀ q log, ∃ t,
      transactAll (l.map fun i => .regRead 4 (elementAddr base i)) (respond q s, log) =
        .next (t, log ++ l.map fun i => .data (f i)) := by
    intro l
    induction l with
    | nil => exact fun _ q log => ⟨respond q s, by simp [transactAll]⟩
    | cons a l ih =>
      intro hl q log
      simp only [List.map_cons, transactAll, h a (hl a (by simp)) q]
      obtain ⟨t, ht⟩ := ih (fun i hi => hl i (by simp [hi])) (.data (f a)) (log ++ [.data (f a)])
      exact ⟨t, by simpa using ht⟩
  exact hl (List.range n) (by simp) s.resp log

end Sys2Proof.Machine
end

