-- ==== Sys2Proof/Tests/Slice0.lean ====
section
/-! SUPPORT. The model's own tests. Expected results are those of spec 95_test_vectors.md (the vector is named) or are
read from the rule named; none is the model's own answer. Then one witness for each statement that has hypotheses. -/

/-! One theorem at a time: each thread of a parallel check reserves memory of its own. -/
set_option Elab.async false

namespace Sys2Proof.Tests

open Sys2Proof.Machine Sys2Proof.Safety

/-! ### Helpers -/

/-- The reset state with a secret text loaded. -/
def loaded (text : String) : State :=
  { State.reset with sec := fill 256 (asciiText text), seclen := BitVec.ofNat 9 (asciiText text).length }

/-- The reset state with a decoded key and a message. -/
def keyed (key msg : List Byte) : State :=
  { State.reset with keyv := true, keylen := BitVec.ofNat 8 key.length, key := fill 160 key, msg := fill 8 msg }

/-- A field of the state one step reaches when a command is placed. -/
def after (i : Instr) (s : State) (f : State → α) : Option α :=
  match step (s.withFetchWord 32 (encode i).toNat) with
  | .next t => some (f t)
  | .fault _ => none
  | .refused _ => none

/-- A field of the state one transaction leaves. -/
def afterBus (x : Transaction) (s : State) (f : State → α) : Option α :=
  match step (withNext x s) with
  | .next t => some (f t)
  | .fault _ => none
  | .refused _ => none

/-! ### Well-formedness: an ill-formed term for each check -/

theorem test_wf_mbz : wordMbzOk 0x00000106#32 = false ∧ wordWf 0x00000106#32 = false := by decide
theorem test_wf_opcode_zero : wordOpcodeOk 0x00000000#32 = false ∧ wordWf 0x00000000#32 = false := by decide
theorem test_wf_opcode_eight : wordOpcodeOk 0x00000008#32 = false ∧ wordWf 0x00000008#32 = false := by decide
theorem test_wf_good : wordWf 0x00000007#32 = true := by decide
theorem test_wf_line_text : (Line.ldsec (List.replicate 257 0x41#8)).wf = false := by decide +kernel
theorem test_wf_line_decode : (Line.decodesecret (List.replicate 257 0x41#8)).wf = false := by decide +kernel
theorem test_wf_line_hotp : (Line.gethotp (List.replicate 257 0x41#8) 0#32).wf = false := by decide +kernel
theorem test_wf_line_totp_text : (Line.gettotp (List.replicate 257 0x41#8) 0).wf = false := by decide +kernel
theorem test_wf_line_totp_counter : (Line.gettotp [] (30 * 2 ^ 32)).wf = false := by decide +kernel
theorem test_wf_line_good :
    (Line.gettotp (List.replicate 256 0x41#8) (30 * 2 ^ 32 - 1)).wf = true := by decide +kernel

/-! ### Decoding: words written out bit by bit from the table's encoding -/

theorem test_decode_b32dec : decode 0b00000000000000000000000000000001#32 = .ok .b32dec := by decide
theorem test_decode_ctrser : decode 0b00000000000000000000000000000010#32 = .ok .ctrser := by decide
theorem test_decode_hmac : decode 0b00000000000000000000000000000011#32 = .ok .hmac := by decide
theorem test_decode_dtrunc : decode 0b00000000000000000000000000000100#32 = .ok .dtrunc := by decide
theorem test_decode_decfmt : decode 0b00000000000000000000000000000101#32 = .ok .decfmt := by decide
theorem test_decode_hotp : decode 0b00000000000000000000000000000110#32 = .ok .hotp := by decide
theorem test_decode_clr : decode 0b00000000000000000000000000000111#32 = .ok .clr := by decide
theorem test_decode_table : decodeTableWord 32 3 = some .hmac ∧ decodeTableWord 32 0x106 = none := by decide

/-! ### Instructions -/

/-- B2. -/
theorem test_b32dec_pads :
    after .b32dec (loaded "MFRGG===") (fun t => (keyBytes t, statusWord t, t.keylen)) =
      some ([0x61#8, 0x62#8, 0x63#8], 0x00000001#32, 3#8) := by decide +kernel

/-- B38: the placement check comes before the alphabet. -/
theorem test_b32dec_order :
    after .b32dec { loaded "=MF1GG==" with keyv := true, keylen := 1#8 } (fun t => (statusWord t, t.keylen)) =
      some (0x00000032#32, 0#8) := by decide +kernel

/-- CS3. -/
theorem test_ctrser_order :
    after .ctrser { State.reset with ctr := 0x01020304#32 } (fun t => t.msg.toList) =
      some [0#8, 0#8, 0#8, 0#8, 1#8, 2#8, 3#8, 4#8] := by decide +kernel

/-- M1. -/
theorem test_hmac_rfc2202 :
    after .hmac (keyed (List.replicate 20 0x0b#8) (asciiText "Hi There")) (fun t => t.digest.toList.take 4) =
      some [0xb6#8, 0x17#8, 0x31#8, 0x86#8] := by decide +kernel

/-- M7: a key of 65 bytes is hashed first. -/
theorem test_hmac_long_key :
    after .hmac (keyed ((List.range 65).map fun i => BitVec.ofNat 8 (7 * i + 3)) [0, 0, 0, 0, 0, 0, 0, 1])
      (fun t => t.digest.toList.take 4) = some [0x2a#8, 0x16#8, 0xea#8, 0xf4#8] := by decide +kernel

/-- DT4: the top bit of the window is dropped. -/
theorem test_dtrunc_sign :
    after .dtrunc { State.reset with digest := fill 20 ((List.range 20).map fun i => BitVec.ofNat 8 (0x80 + i)) }
      (fun t => t.p) = some 0x03848586#31 := by decide +kernel

/-- DT5: offset 15, the window ends at index 18. -/
theorem test_dtrunc_last_window :
    after .dtrunc
      { State.reset with digest := fill 20 ((List.range 19).map (fun i => BitVec.ofNat 8 (0xa0 + i)) ++ [0xff#8]) }
      (fun t => t.p) = some 0x2FB0B1B2#31 := by decide +kernel

/-- F5: left zero padding. -/
theorem test_decfmt_padding :
    after .decfmt { State.reset with p := 99999#31 } (fun t => (outText t, t.outlen)) =
      some (asciiText "099999", 6#4) := by decide +kernel

/-- F15: the largest value, ten characters, no modulo. -/
theorem test_decfmt_largest :
    after .decfmt { State.reset with p := 0x7FFFFFFF#31 } (fun t => (outText t, t.outlen)) =
      some (asciiText "2147483647", 10#4) := by decide +kernel

/-- H8. -/
theorem test_hotp_rfc4226 :
    after .hotp { loaded "GEZDGNBVGY3TQOJQGEZDGNBVGY3TQOJQ" with ctr := 7#32 } (fun t => (outText t, t.p)) =
      some (asciiText "82162583", 0x04E5B397#31) := by decide +kernel

/-- H12: two pad characters, the empty string, and `P` keeps its value. -/
theorem test_hotp_failure :
    after .hotp { loaded "MFRGG==" with ctr := 1#32, p := 5#31, outlen := 6#4 }
      (fun t => (t.outlen, statusWord t, t.p)) = some (0#4, 0x00000022#32, 5#31) := by decide +kernel

/-- R163. -/
theorem test_clr :
    after .clr (keyed [1#8] [2#8]) (fun t => (statusWord t, t.key[0], t.msg[0])) =
      some (0#32, 0#8, 0#8) := by decide +kernel

/-- X6: not `HOTP`, bits 31:8 are not zero. -/
theorem test_illegal_command :
    afterBus (.regWrite 4 0x004#12 0x106#32) State.reset (fun t => (statusWord t, t.resp)) =
      some (0x00000062#32, .ok) := by decide +kernel

/-! ### The register interface and the script reader -/

/-- X9 and X10: the bound of `SECLEN`. -/
theorem test_seclen_bound :
    afterBus (.regWrite 4 0x010#12 257#32) State.reset (fun t => (t.seclen, t.resp)) = some (0#9, .error) ∧
    afterBus (.regWrite 4 0x010#12 256#32) State.reset (fun t => (t.seclen, t.resp)) = some (256#9, .ok) := by
  decide +kernel

/-- X13: bit 31 of a write to `P` is ignored. -/
theorem test_p_warl :
    afterBus (.regWrite 4 0x018#12 0xFFFFFFFF#32) State.reset (fun t => t.p) = some 0x7FFFFFFF#31 := by decide +kernel

/-- X12 and X17: misaligned and narrow accesses. -/
theorem test_access_errors :
    afterBus (.regRead 4 0x006#12) State.reset (fun t => t.resp) = some .error ∧
    afterBus (.regWrite 1 0x004#12 7#32) State.reset (fun t => t.resp) = some .error := by decide +kernel

/-- R76: a line with a comment, an indexed register and a number each way. -/
theorem test_parse_write :
    parseLine (asciiText "WR SEC[3], 0x4d   ; character 3") = some (some (.wr 0x40C#12 0x4d#32)) := by decide +kernel

/-- R76, R78: a read with its expected value, and a line that cannot be expressed. -/
theorem test_parse_read :
    parseLine (asciiText "RD P -> 92555") = some (some (.rd 0x018#12 (some 92555#32))) ∧
    parseLine (asciiText "WR SEC[256], 1") = none := by decide +kernel

/-- R78, R164: a TOTP line is the HOTP line of its quotient, and the first counter that does not fit does not wrap. -/
theorem test_gettotp :
    (Line.gettotp (asciiText "ME") 59).expand = (Line.gethotp (asciiText "ME") 1#32).expand ∧
    (runScript [.cmd .clr, .gettotp (asciiText "ME") (30 * 2 ^ 32)] State.reset).isNone = true := by decide +kernel

/-- The responses of a script, if it runs. -/
def responses (lines : List Line) (s : State) : Option (List Response) :=
  match runScript lines s with
  | some (.next (_, log)) => some log
  | _ => none

/-- R76 with program 7 of 95_test_vectors.md: the lines in order, on past two `ERROR` responses. -/
theorem test_script_past_errors :
    responses [.wr 0x00C#12 7#32, .wr 0x010#12 300#32, .rd 0x0B8#12 none, .rd 0x00C#12 none] State.reset =
      some [.ok, .error, .error, .data 7#32] := by decide +kernel

/-- R78: `LDMSG` writes its bytes in order. -/
theorem test_ldmsg :
    responses [.ldmsg #v[1#32, 2#32, 3#32, 4#32, 5#32, 6#32, 7#32, 0x108#32], .rd 0x020#12 none, .rd 0x03C#12 none]
      State.reset = some (List.replicate 8 .ok ++ [.data 1#32, .data 8#32]) := by decide +kernel

/-! ### Witnesses: the hypotheses of each statement can be met -/

theorem witness_CommandWriteExecutesItsWord :
    (∃ s : State, s.pending = [.transact (.regWrite 4 0x004#12 6#32)]) ∧
    (6#32).extractLsb' 8 24 = 0#24 ∧ (6#32).extractLsb' 0 8 = opcodeOf .hotp ∧
    (∀ i : Instr, ¬ ((0x106#32).extractLsb' 8 24 = 0#24 ∧ (0x106#32).extractLsb' 0 8 = opcodeOf i)) ∧
    (∀ i : Instr, ¬ ((8#32).extractLsb' 8 24 = 0#24 ∧ (8#32).extractLsb' 0 8 = opcodeOf i)) :=
  ⟨⟨{ State.reset with pending := _ }, rfl⟩, by decide, by decide, by intro i; cases i <;> decide,
    by intro i; cases i <;> decide⟩

theorem witness_DecodeEncodeAgree :
    Instr.wf .clr = true ∧ decode 7#32 = .ok .clr ∧ wordWf 7#32 = true := by decide

theorem witness_StepRunsDecodedInstruction :
    (∃ s : State, s.pending = [commandWrite 7#32]) ∧ decode 7#32 = .ok .clr ∧ Instr.wf .clr = true ∧
    decodeTableWord 32 1 = some .b32dec ∧ Instr.wf .b32dec = true :=
  ⟨⟨{ State.reset with pending := _ }, rfl⟩, by decide, rfl, by decide, rfl⟩

theorem witness_IdleStepKeepsState : State.reset.pending = [] := rfl

theorem witness_AlphabetClosedForm :
    (25#5).toNat ≤ 25 ∧ 26 ≤ (26#5).toNat ∧ symbolVal 0x37#8 ≠ none := by decide

theorem witness_DecodeFailureCause_empty : State.reset.seclen = 0#9 := rfl

theorem witness_DecodeFailureCause_padCount :
    (loaded "MFRGG==").seclen ≠ 0#9 ∧
    ((loaded "MFRGG==").sec.toList.take (loaded "MFRGG==").seclen.toNat).count 0x3D#8 ∉ [6, 4, 3, 1, 0] := by
  decide +kernel

theorem witness_DecodeFailureCause_padPlace :
    ∃ text, text = (loaded "=MFRGG==").sec.toList.take (loaded "=MFRGG==").seclen.toNat ∧
      (loaded "=MFRGG==").seclen ≠ 0#9 ∧ text.count 0x3D#8 ∈ [6, 4, 3, 1, 0] ∧ ¬ PadsTrail text (text.count 0x3D#8) := by
  refine ⟨asciiText "=MFRGG==", by decide +kernel, by decide +kernel, by decide +kernel, fun h => ?_⟩
  exact absurd (h 5 (by decide +kernel) (by decide +kernel)) (by decide +kernel)

theorem witness_DecodeFailureCause_badChar :
    ∃ text, text = (loaded "MFRGG0").sec.toList.take (loaded "MFRGG0").seclen.toNat ∧ (loaded "MFRGG0").seclen ≠ 0#9 ∧
      text.count 0x3D#8 ∈ [6, 4, 3, 1, 0] ∧ PadsTrail text (text.count 0x3D#8) ∧ ¬ SymbolsValid text := by
  refine ⟨asciiText "MFRGG0", by decide +kernel, by decide +kernel, by decide +kernel, fun j h1 h2 => ?_, ?_⟩
  · have e : (asciiText "MFRGG0").length = 6 := by decide +kernel
    have c : (asciiText "MFRGG0").count 0x3D#8 = 0 := by decide +kernel
    omega
  · unfold SymbolsValid
    decide +kernel

theorem witness_DecodeSuccessStoresKey :
    ∃ text k, text = (loaded "MFRGG===").sec.toList.take (loaded "MFRGG===").seclen.toNat ∧
      k = 5 * (text.filter (· != 0x3D#8)).length / 8 ∧ (loaded "MFRGG===").seclen ≠ 0#9 ∧
      text.count 0x3D#8 ∈ [6, 4, 3, 1, 0] ∧ PadsTrail text (text.count 0x3D#8) ∧ SymbolsValid text ∧ 0 < k := by
  refine ⟨asciiText "MFRGG===", 3, by decide +kernel, by decide +kernel, by decide +kernel, by decide +kernel,
    fun j h1 h2 => ?_, by unfold SymbolsValid; decide +kernel, by decide⟩
  have e : (asciiText "MFRGG===").length = 8 := by decide +kernel
  have c : (asciiText "MFRGG===").count 0x3D#8 = 3 := by decide +kernel
  exact (by decide +kernel : ∀ j : Fin 8, 5 ≤ j.val → (asciiText "MFRGG===")[j.val]? = some 0x3D#8)
    ⟨j, by omega⟩ (by simp only; omega)

theorem witness_StandardBase32RoundTrip : [0x00#8] ≠ ([] : List Byte) := by decide

theorem witness_PadsDoNotChangeBytes :
    asciiText "MFRGG" ≠ [] ∧ (∀ x ∈ asciiText "MFRGG", (symbolVal x).isSome = true) ∧ 6 ∈ [1, 3, 4, 6] := by
  decide +kernel

theorem witness_AlphabetTextDecodes : [31#5] ≠ ([] : List (BitVec 5)) := by decide

theorem witness_Sha1ScheduleRecurrence : (List.replicate 16 0x80#32).length = 16 := by decide

theorem witness_Sha1RoundFunctions : 0 ≤ 19 ∧ 20 ≤ 39 ∧ 59 ≤ 59 ∧ 60 ≤ 79 := by decide

theorem witness_Sha1CompressionRounds : (List.replicate 16 0x80#32).length = 16 := by decide

theorem witness_Sha1BlockByBlock :
    (sha1Pad (List.replicate 55 1#8)).length = 64 * 1 ∧ (sha1Pad (List.replicate 56 1#8)).length = 64 * 2 := by
  decide +kernel

theorem witness_HmacConstruction :
    (∃ k : List Byte, 64 < k.length ∧ k = List.replicate 65 7#8) ∧
    (∃ k k1 k0 : List Byte, k.length ≤ 64 ∧ k1 = k ∧ k0 = k1 ++ List.replicate (64 - k1.length) 0x00#8 ∧ k0 ≠ k) :=
  ⟨⟨_, by decide, rfl⟩, ⟨[7#8], _, _, by decide, rfl, rfl, by decide⟩⟩

theorem witness_HmacKeyBlockCases :
    ([] : List Byte).length = 0 ∧ (List.replicate 63 1#8).length < 64 ∧ (List.replicate 64 1#8).length = 64 ∧
    64 < (List.replicate 65 1#8).length ∧ (List.replicate 63 1#8).length + 1 ≤ 64 := by decide

theorem witness_HmacCommandResult : State.reset.keyv = false ∧ (keyed [1#8] []).keyv = true := by decide

theorem witness_HmacDigestDeterminedByKeyAndMessage :
    ∃ s s' : State, s ≠ s' ∧ s.keyv = true ∧ s'.keyv = true ∧
      s.key.toList.take s.keylen.toNat = s'.key.toList.take s'.keylen.toNat ∧ s.msg = s'.msg :=
  ⟨keyed [1#8] [2#8], { keyed [1#8] [2#8] with ctr := 9#32 }, by decide +kernel, rfl, rfl, rfl, rfl⟩

theorem witness_DtruncResult :
    ∃ (s : State) (o : Nat) (d : Nat → Nat), o = s.digest[19].toNat % 16 ∧
      (∀ k, d k = (s.digest.toList.getD k 0#8).toNat) ∧ o = 15 :=
  ⟨{ State.reset with digest := fill 20 (List.replicate 20 0xFF#8) }, 15, _, by decide +kernel, fun _ => rfl, rfl⟩

theorem witness_DtruncIgnoredBits :
    ∃ (d d' : Vector Byte 20) (o : Fin 16), d ≠ d' ∧ o.val = d[19].toNat % 16 ∧ o.val = d'[19].toNat % 16 ∧
      (∀ k : Fin 4, d[o.val + k.val] = d'[o.val + k.val]) :=
  ⟨fill 20 (List.replicate 19 7#8 ++ [0x0F#8]), fill 20 (List.replicate 19 7#8 ++ [0xFF#8]), 15, by decide +kernel,
    by decide +kernel, by decide +kernel, by decide +kernel⟩

theorem witness_OutputLengthByRange :
    ∃ a b c d e : State, a.p.toNat = 999999 ∧ b.p.toNat = 1000000 ∧ c.p.toNat = 99999999 ∧ d.p.toNat = 100000000 ∧
      e.p.toNat = 1000000000 :=
  ⟨{ State.reset with p := 999999#31 }, { State.reset with p := 1000000#31 }, { State.reset with p := 99999999#31 },
    { State.reset with p := 100000000#31 }, { State.reset with p := 1000000000#31 }, rfl, rfl, rfl, rfl, rfl⟩

theorem witness_HotpResult :
    decodeSecret (secText (loaded "MFRGG===")) = .present [0x61#8, 0x62#8, 0x63#8] ∧
    decodeSecret (secText (loaded "MFRGG==")) = .absent .padCount := by decide +kernel

theorem witness_HotpEqualsUnitCommands :
    after .b32dec (loaded "A") (fun d => d.keyv) = some true ∧
    after .b32dec (loaded "") (fun d => d.keyv) = some false := by decide +kernel

theorem witness_HotpEmptyExactlyOnFailure :
    after .hotp (loaded "MFRGG==") (fun t => t.keyv) = some false ∧
    (after .hotp (loaded "A") (fun t => decide (t.outlen ≠ 0#4))) = some true := by decide +kernel

theorem witness_GethotpScriptReturnsOtp : (List.replicate 256 0x41#8).length ≤ 256 := by decide +kernel

theorem witness_DecodesecretScriptReturnsKey :
    (asciiText "MFRGG===").length ≤ 256 ∧
    decodeSecret (asciiText "MFRGG===") = .present [0x61#8, 0x62#8, 0x63#8] ∧
    decodeSecret [] = .absent .empty := by decide +kernel

theorem witness_TotpSameWindowSameLines :
    30 / 30 = 59 / 30 ∧ (30 * 2 ^ 32 - 1) / 30 < 2 ^ 32 ∧ 2 ^ 32 ≤ 30 * 2 ^ 32 / 30 := by decide

theorem witness_reserved_addresses :
    ReservedAddr 0x0B8#12 ∧ ReservedAddr 0x0FC#12 ∧ ReservedAddr 0x380#12 ∧ ReservedAddr 0x3FC#12 ∧
    ReservedAddr 0x800#12 ∧ ReservedAddr 0xFFC#12 ∧ ¬ ReservedAddr 0x0B4#12 ∧ ¬ ReservedAddr 0x100#12 ∧
    ¬ ReservedAddr 0x37C#12 ∧ ¬ ReservedAddr 0x400#12 ∧ ¬ ReservedAddr 0x7FC#12 := by
  unfold ReservedAddr
  decide

/-- Also of `AccessErrorsAndNoOthers`, with the addresses above. -/
theorem witness_ReadsAnswerRegisters : (2 ≠ 4) ∧ (0x006#12 : Addr).toNat % 4 ≠ 0 ∧ ReservedAddr 0x0B8#12 := by
  unfold ReservedAddr
  decide

theorem witness_WritesReachRegisters :
    (256#32).toNat ≤ 256 ∧ 256 < (257#32).toNat ∧ ReadOnlyAddr 0x0B4#12 ∧ ReadOnlyAddr 0x37C#12 ∧
    ReadOnlyAddr 0x000#12 := by
  unfold ReadOnlyAddr
  decide

theorem witness_AccessErrorsAndNoOthers :
    ¬ (4 ≠ 4 ∨ (0x010#12 : Addr).toNat % 4 ≠ 0 ∨ ReservedAddr 0x010#12) ∧
    ¬ (4 ≠ 4 ∨ (0x010#12 : Addr).toNat % 4 ≠ 0 ∨ ReservedAddr 0x010#12 ∨ ReadOnlyAddr 0x010#12 ∨
      ((0x010#12 : Addr) = 0x010#12 ∧ 256 < (256#32).toNat)) := by
  unfold ReservedAddr ReadOnlyAddr
  decide

theorem witness_ReadAfterWrite :
    Reg.writable .seclen = true ∧ Reg.seclen ≠ .cmd ∧ (256#32).toNat ≤ 256 := by decide

theorem witness_DataTransactionsKeepResults :
    (∀ v : Word, Transaction.regWrite 4 0x400#12 7#32 ≠ .regWrite 4 0x004#12 v) ∧
    (∀ v : Word, Transaction.regWrite 2 0x004#12 7#32 ≠ .regWrite 4 0x004#12 v) := by
  constructor <;> intro v h <;> simp at h

theorem witness_ResetOverridesTransaction :
    ∃ s : State, s.keyv = true ∧ s.pending = [.reset (some (.regWrite 4 0x004#12 6#32))] :=
  ⟨{ keyed [1#8] [2#8] with pending := _ }, rfl, rfl⟩

/-- A state with a key and an output, built by operations that keep the invariant. -/
theorem witness_EveryStepKeepsInvariant :
    ∃ s t : State, Inv s ∧ step s = .next t ∧ (∃ u : State, exec .hmac s = .next u) ∧ s.keylen = 1#8 := by
  refine ⟨{ storeOutput (asciiText "092555") (storeKey [0x61#8] (loaded "ME")) with
      pending := [commandWrite 3#32] }, _, ?_, rfl, ⟨_, rfl⟩, by decide +kernel⟩
  exact
    { keylen_le := by decide +kernel, key_tail := by decide +kernel, no_key := by decide +kernel,
      outlen_legal := by decide +kernel, out_tail := by decide +kernel, out_digits := by decide +kernel,
      no_leading_zero := by decide +kernel, seclen_le := by decide +kernel, p_lt := by decide +kernel,
      err_iff_cause := by decide +kernel, cause_le := by decide +kernel, status_reserved := by decide +kernel }

theorem witness_KeyvChangedOnlyByDecodeOrClear :
    ∃ s t : State, step s = .next t ∧ t.keyv ≠ s.keyv :=
  ⟨{ keyed [1#8] [] with pending := [commandWrite 7#32] }, _, rfl, by decide +kernel⟩

theorem witness_CommandsWriteOnlyTheirRegisters :
    ∃ t : State, exec .hmac State.reset = .next t ∧ State.reset.keyv = false :=
  ⟨_, rfl, rfl⟩

theorem witness_CommandsWriteOnlyTheirRegisters_hotp :
    after .hotp { loaded "MFRGG==" with p := 5#31 } (fun t => (t.keyv, t.p)) = some (false, 5#31) := by decide +kernel

/-- `s` and a state that differs in a character no command reads. -/
def withStray (s : State) : State := { s with sec := s.sec.set 200 1#8 }

theorem witness_CommandsReadOnlyTheirOperands :
    loaded "ME" ≠ withStray (loaded "ME") ∧
    (loaded "ME").sec.toList.take (loaded "ME").seclen.toNat =
      (withStray (loaded "ME")).sec.toList.take (withStray (loaded "ME")).seclen.toNat ∧
    (loaded "ME").ctr = (withStray (loaded "ME")).ctr ∧ (loaded "ME").p = (withStray (loaded "ME")).p := by
  decide +kernel

/-- The same for the operands of `HMAC` and `DTRUNC`: an unread key byte, an unread digest byte. -/
theorem witness_CommandsReadOnlyTheirOperands_hmac_dtrunc :
    (keyed [1#8] [2#8]).key ≠ ((keyed [1#8] [2#8]).key.set 9 7#8) ∧
    (keyed [1#8] [2#8]).key.toList.take 1 = ((keyed [1#8] [2#8]).key.set 9 7#8).toList.take 1 ∧
    (State.reset.digest[19] = (State.reset.digest.set 4 1#8)[19] ∧
      ∀ k : Fin 4, State.reset.digest[k.val] = (State.reset.digest.set 4 1#8)[k.val]) := by
  decide +kernel

theorem witness_FailureCausesPerCommand :
    Instr.hotp ∈ [Instr.b32dec, .hotp] ∧ Instr.clr ∈ [Instr.ctrser, .dtrunc, .decfmt, .clr] ∧
    wordWf 0#32 = false ∧ secText (loaded "=MFRGG==") = asciiText "=MFRGG==" := by decide +kernel

/-- Each clause of the decode's causes on `HOTP` (60_exceptions.md R183, vectors of 95_test_vectors.md section 2.1). -/
theorem witness_FailureCausesPerCommand_clauses :
    after .hotp (loaded "") (fun t => t.cause) = some .empty ∧
    after .hotp (loaded "A=B=1") (fun t => t.cause) = some .padCount ∧
    after .hotp (loaded "=MFRGG==") (fun t => t.cause) = some .padPlace ∧
    after .hotp (loaded "mfrgg===") (fun t => t.cause) = some .badChar ∧
    after .b32dec (loaded "MFRGG===") (fun t => t.cause) = some .none := by decide +kernel

/-- Each clause of a line that cannot be expressed, and a script that can. -/
theorem witness_ScriptsRunIffExpressible :
    256 < (List.replicate 257 0x41#8).length ∧ 2 ^ 32 ≤ 30 * 2 ^ 32 / 30 ∧
    (runScript [.ldsec (List.replicate 257 0x41#8)] State.reset).isNone = true ∧
    (runScript [.ldsec (List.replicate 256 0x41#8)] State.reset).isSome = true := by decide +kernel

theorem witness_ScriptsRunIffExpressible_order :
    (runScript [.wr 0x0B8#12 1#32, .rdout] State.reset).isSome = true := by decide +kernel

theorem witness_PseudoInstructionExpansions :
    (List.replicate 256 0x41#8).length ≤ 256 ∧ (30 * 2 ^ 32 - 1) / 30 < 2 ^ 32 := by decide +kernel

end Sys2Proof.Tests
end

section
/-! PROOFS, family 10_state.md: what the registers hold after reset. -/

namespace Sys2Proof.Machine

/-- 10_state.md R23: `STATUS` without a key, an error or a cause has no bit set. -/
theorem statusWord_eq_zero {s : State} (hkeyv : s.keyv = false) (herr : s.err = false) (hcause : s.cause = .none) :
    statusWord s = 0#32 := by
  simp [statusWord, Cause.code, hkeyv, herr, hcause]

theorem getElem_eq_zero_of_eq_replicate {n : Nat} {buf : Vector Byte n} (h : buf = Vector.replicate n 0#8)
    (i : Fin n) : buf[i] = 0#8 := by
  subst h
  exact Vector.getElem_replicate i.isLt

@[simp] theorem readReg_id (s : State) : readReg s .id = 0x4D464131#32 := rfl

/-- Settles O46: each register by its reset lemma, the buffers element by element, `STATUS` from its three fields. -/
theorem resetStateAllZero : Obligations.ResetStateAllZero := by
  have hstatus : statusWord State.reset = 0#32 := statusWord_eq_zero reset_keyv reset_err reset_cause
  have hcode : State.reset.cause.code = 0#4 := congrArg Cause.code reset_cause
  have hsec := getElem_eq_zero_of_eq_replicate reset_sec
  have hkey := getElem_eq_zero_of_eq_replicate reset_key
  have hmsg := getElem_eq_zero_of_eq_replicate reset_msg
  have hdigest := getElem_eq_zero_of_eq_replicate reset_digest
  have hout := getElem_eq_zero_of_eq_replicate reset_out
  exact ⟨hstatus, reset_keyv, reset_err, hcode, reset_ctr, reset_seclen, hsec, reset_keylen, hkey, hmsg, hdigest,
    reset_p, reset_outlen, hout, readReg_id State.reset⟩

end Sys2Proof.Machine
end

section
/-! PROOFS, family 20_memory.md: the address map, the access errors, what a read and a write of each register do. -/

namespace Sys2Proof.Machine

open Sys2Proof.Safety

/-! ### The address map (R51) -/

/-- The reserved ranges hold no register. -/
theorem regAtOffset_reserved {a : Addr} (h : ReservedAddr a) : regAtOffset a.toNat = none := by
  unfold ReservedAddr at h
  unfold regAtOffset
  rw [if_neg (by omega), if_neg (by omega), if_neg (by omega), if_neg (by omega), if_neg (by omega),
    if_neg (by omega), if_neg (by omega), if_neg (by omega), dif_neg (by omega), dif_neg (by omega),
    dif_neg (by omega), dif_neg (by omega), dif_neg (by omega)]

/-- An aligned offset within a range of four-byte elements is that of one of them. -/
theorem exists_element_offset {base count n : Nat} (hbase : base % 4 = 0) (hn : n % 4 = 0) (hlo : base ≤ n)
    (hhi : n < base + 4 * count) : ∃ i : Fin count, base + 4 * i.val = n :=
  ⟨⟨(n - base) / 4, by omega⟩, by dsimp only; omega⟩

theorem addr_eq_of_offset {n : Nat} {a : Addr} (h : n = a.toNat) : BitVec.ofNat 12 n = a :=
  BitVec.eq_of_toNat_eq (by simp [h])

/-- Every aligned address below the buffers is that of a register. -/
theorem exists_single_reg_addr {a : Addr} (haligned : a.toNat % 4 = 0) (hlt : a.toNat < 0x020) :
    ∃ r : Reg, r.addr = a := by
  obtain ⟨i, hi⟩ := exists_element_offset (base := 0) (count := 8) rfl haligned (by omega) (by omega)
  match i, hi with
  | 0, hi => exact ⟨.id, addr_eq_of_offset hi⟩
  | 1, hi => exact ⟨.cmd, addr_eq_of_offset hi⟩
  | 2, hi => exact ⟨.status, addr_eq_of_offset hi⟩
  | 3, hi => exact ⟨.ctr, addr_eq_of_offset hi⟩
  | 4, hi => exact ⟨.seclen, addr_eq_of_offset hi⟩
  | 5, hi => exact ⟨.keylen, addr_eq_of_offset hi⟩
  | 6, hi => exact ⟨.p, addr_eq_of_offset hi⟩
  | 7, hi => exact ⟨.outlen, addr_eq_of_offset hi⟩

/-- A buffer's range of addresses holds its elements and nothing else. -/
theorem exists_buffer_reg_addr {base count : Nat} {a : Addr} (elem : Fin count → Reg)
    (helem : ∀ i, (elem i).addr = BitVec.ofNat 12 (base + 4 * i.val)) (hbase : base % 4 = 0)
    (haligned : a.toNat % 4 = 0) (hrange : base ≤ a.toNat ∧ a.toNat < base + 4 * count) : ∃ r : Reg, r.addr = a := by
  obtain ⟨i, hi⟩ := exists_element_offset hbase haligned hrange.1 hrange.2
  exact ⟨elem i, (helem i).trans (addr_eq_of_offset hi)⟩

/-- Every address that is neither misaligned nor reserved is that of a register. -/
theorem exists_reg_addr {a : Addr} (haligned : a.toNat % 4 = 0) (h : ¬ ReservedAddr a) : ∃ r : Reg, r.addr = a := by
  unfold ReservedAddr at h
  have hranges : a.toNat < 0x020 ∨ (0x020 ≤ a.toNat ∧ a.toNat < 0x020 + 4 * 8) ∨
      (0x040 ≤ a.toNat ∧ a.toNat < 0x040 + 4 * 20) ∨ (0x090 ≤ a.toNat ∧ a.toNat < 0x090 + 4 * 10) ∨
      (0x100 ≤ a.toNat ∧ a.toNat < 0x100 + 4 * 160) ∨ (0x400 ≤ a.toNat ∧ a.toNat < 0x400 + 4 * 256) := by omega
  rcases hranges with hsingle | hmsg | hdigest | hout | hkey | hsec
  · exact exists_single_reg_addr haligned hsingle
  · exact exists_buffer_reg_addr .msg (fun _ => rfl) rfl haligned hmsg
  · exact exists_buffer_reg_addr .digest (fun _ => rfl) rfl haligned hdigest
  · exact exists_buffer_reg_addr .out (fun _ => rfl) rfl haligned hout
  · exact exists_buffer_reg_addr .key (fun _ => rfl) rfl haligned hkey
  · exact exists_buffer_reg_addr .sec (fun _ => rfl) rfl haligned hsec

/-- Exactly the misaligned and the reserved addresses reach no register. -/
theorem regAt_eq_none_iff (a : Addr) : regAt a = none ↔ a.toNat % 4 ≠ 0 ∨ ReservedAddr a := by
  constructor
  · intro hnone
    by_contra! hmapped
    obtain ⟨r, rfl⟩ := exists_reg_addr hmapped.1 hmapped.2
    simp [regAt_addr] at hnone
  · rintro (hmisaligned | hreserved)
    · exact if_neg hmisaligned
    · exact ite_eq_right_iff.2 fun _ => regAtOffset_reserved hreserved

/-- The register the address map finds has that address. -/
theorem addr_of_regAt {a : Addr} {r : Reg} (h : regAt a = some r) : r.addr = a := by
  have hmapped : ¬ (a.toNat % 4 ≠ 0 ∨ ReservedAddr a) := by simp [← regAt_eq_none_iff, h]
  rw [not_or, not_not] at hmapped
  obtain ⟨r', rfl⟩ := exists_reg_addr hmapped.1 hmapped.2
  exact congrArg Reg.addr (Option.some.inj (h.symm.trans (regAt_addr r')))

theorem addr_injective {r r' : Reg} (h : r.addr = r'.addr) : r = r' := by
  have hat : some r = some r' := (regAt_addr r).symm.trans (h ▸ regAt_addr r')
  exact Option.some.inj hat

/-- The read-only registers are those at the read-only addresses. -/
theorem readOnlyAddr_addr (r : Reg) : ReadOnlyAddr r.addr ↔ r.writable = false := by
  unfold ReadOnlyAddr
  cases r <;> simp [Reg.addr, Reg.writable, BitVec.toNat_eq] <;> omega

/-! ### The access errors (R54) -/

/-- Items 1 to 3 of R54, the access errors of a read. -/
def ReadAccessError (size : Nat) (a : Addr) : Prop :=
  size ≠ 4 ∨ a.toNat % 4 ≠ 0 ∨ ReservedAddr a

/-- Items 1 to 5 of R54, the access errors of a write. -/
def WriteAccessError (size : Nat) (a : Addr) (v : Word) : Prop :=
  size ≠ 4 ∨ a.toNat % 4 ≠ 0 ∨ ReservedAddr a ∨ ReadOnlyAddr a ∨ (a = 0x010#12 ∧ 256 < v.toNat)

theorem readTarget_eq_none_iff (size : Nat) (a : Addr) : readTarget size a = none ↔ ReadAccessError size a := by
  by_cases hsize : size = 4 <;> simp [readTarget, ReadAccessError, hsize, regAt_eq_none_iff]

/-- Items 4 and 5 of R54, at the address of the register. -/
theorem writeRefused_iff (r : Reg) (v : Word) :
    writeRefused r v = true ↔ ReadOnlyAddr r.addr ∨ (r.addr = 0x010#12 ∧ 256 < v.toNat) := by
  have hseclen : r = .seclen ↔ r.addr = 0x010#12 := ⟨congrArg Reg.addr, addr_injective (r' := .seclen)⟩
  rw [← Bool.not_eq_false, writeRefused_eq_false, readOnlyAddr_addr, hseclen, not_and_or, Bool.not_eq_true,
    Classical.not_imp, Nat.not_le]

theorem writeTarget_eq_none_iff (size : Nat) (a : Addr) (v : Word) :
    writeTarget size a v = none ↔ WriteAccessError size a v := by
  by_cases hsize : size = 4
  · subst hsize
    cases hreg : regAt a with
    | none =>
      have hunmapped := (regAt_eq_none_iff a).1 hreg
      simp [writeTarget, WriteAccessError, hreg, ← or_assoc, hunmapped]
    | some r =>
      have hmapped : ¬ (a.toNat % 4 ≠ 0 ∨ ReservedAddr a) := by simp [← regAt_eq_none_iff, hreg]
      have herror : WriteAccessError 4 a v ↔ writeRefused r v = true := by
        rw [writeRefused_iff, addr_of_regAt hreg]
        unfold WriteAccessError
        tauto
      simp [herror, writeTarget, hreg, Option.filter]
  · simp [writeTarget, WriteAccessError, hsize]

/-! ### The transactions (R52, R53) -/

theorem step_withNext (t : Transaction) (s : State) : step (withNext t s) = transact t s := step_transact rfl

theorem step_read_error {size : Nat} {a : Addr} (s : State) (h : ReadAccessError size a) :
    step (withNext (.regRead size a) s) = .next { s with resp := .error } := by
  simp [step_withNext, transact, regRead, (readTarget_eq_none_iff size a).2 h, respond]

theorem step_write_error {size : Nat} {a : Addr} {v : Word} (s : State) (h : WriteAccessError size a v) :
    step (withNext (.regWrite size a v) s) = .next { s with resp := .error } := by
  simp [step_withNext, transact, regWrite, (writeTarget_eq_none_iff size a v).2 h, respond]

theorem readGives_addr (r : Reg) (s : State) : ReadGives s r.addr (readReg s r) :=
  (step_withNext _ s).trans (regRead_addr r s)

/-- A store neither reads nor changes the response. -/
theorem storeReg_respond (r : Reg) (v : Word) (q : Response) (s : State) :
    storeReg r v (respond q s) = respond q (storeReg r v s) := by
  cases r <;> rfl

theorem writeGives_addr (r : Reg) (v : Word) (s : State) (hcmd : r ≠ .cmd) (hw : writeRefused r v = false) :
    WriteGives s r.addr v (storeReg r v s) :=
  calc step (withNext (.regWrite 4 r.addr v) s)
    _ = regWrite 4 r.addr v s := step_withNext _ s
    _ = .next (storeReg r v (respond .ok s)) := regWrite_addr r v s hcmd hw
    _ = .next (respond .ok (storeReg r v s)) := by rw [storeReg_respond]

/-- A write to `CMD` is answered `OK` whatever its data. -/
theorem writeGives_cmd (v : Word) (s : State) :
    ∃ t, runCommand v (respond .ok s) = .next t ∧ t.resp = .ok ∧ WriteGives s (Reg.addr .cmd) v t := by
  obtain ⟨t, ht⟩ := transact_next (.regWrite 4 (Reg.addr .cmd) v) s
  have hrun : runCommand v (respond .ok s) = .next t := (regWrite_cmd v s).symm.trans ht
  have hresp : t.resp = .ok := (runCommand_host_side hrun).1
  refine ⟨t, hrun, hresp, ?_⟩
  calc step (withNext (.regWrite 4 (Reg.addr .cmd) v) s)
    _ = .next t := (step_withNext _ s).trans ht
    _ = .next { t with resp := .ok } := by rw [← hresp]

/-- A write that is no access error is answered `OK`. -/
theorem step_write_ok {size : Nat} {a : Addr} {v : Word} (s : State) (h : ¬ WriteAccessError size a v) :
    ∃ t, step (withNext (.regWrite size a v) s) = .next t ∧ t.resp = .ok := by
  rw [← writeTarget_eq_none_iff] at h
  obtain ⟨r, hr⟩ := Option.ne_none_iff_exists'.1 h
  obtain ⟨rfl, hreg, hw⟩ := writeTarget_some hr
  rw [← addr_of_regAt hreg]
  by_cases hcmd : r = .cmd
  · subst hcmd
    obtain ⟨t, -, -, ht⟩ := writeGives_cmd v s
    exact ⟨_, ht, rfl⟩
  · exact ⟨_, writeGives_addr r v s hcmd hw, rfl⟩

/-- A read that is no access error is answered with data. -/
theorem step_read_data {size : Nat} {a : Addr} (s : State) (h : ¬ ReadAccessError size a) :
    ∃ v, step (withNext (.regRead size a) s) = .next { s with resp := .data v } := by
  rw [← readTarget_eq_none_iff] at h
  obtain ⟨r, hr⟩ := Option.ne_none_iff_exists'.1 h
  exact ⟨readReg s r, by simp [step_withNext, transact, regRead, hr, respond]⟩

/-! ### The bits a register stores (R53) -/

theorem storeReg_seclen (v : Word) (s : State) :
    storeReg .seclen v s = { s with seclen := v.extractLsb' 0 9 } := by
  rw [← BitVec.setWidth_eq_extractLsb' (by omega)]
  rfl

theorem storeReg_p (v : Word) (s : State) : storeReg .p v s = { s with p := v.extractLsb' 0 31 } := by
  rw [← BitVec.setWidth_eq_extractLsb' (by omega)]
  rfl

theorem storeReg_msg (i : Fin 8) (v : Word) (s : State) :
    storeReg (.msg i) v s = { s with msg := s.msg.set i (v.extractLsb' 0 8) } := by
  rw [← BitVec.setWidth_eq_extractLsb' (by omega)]
  rfl

theorem storeReg_digest (i : Fin 20) (v : Word) (s : State) :
    storeReg (.digest i) v s = { s with digest := s.digest.set i (v.extractLsb' 0 8) } := by
  rw [← BitVec.setWidth_eq_extractLsb' (by omega)]
  rfl

theorem storeReg_sec (i : Fin 256) (v : Word) (s : State) :
    storeReg (.sec i) v s = { s with sec := s.sec.set i (v.extractLsb' 0 8) } := by
  rw [← BitVec.setWidth_eq_extractLsb' (by omega)]
  rfl

/-! ### The statements -/

/-- Settles O38: every listed address is that of its register, and the rest are access errors. -/
theorem readsAnswerRegisters : Obligations.ReadsAnswerRegisters := by
  intro s
  have hread := fun r : Reg => readGives_addr r s
  exact ⟨hread .id, hread .cmd, hread .status, hread .ctr, hread .seclen, hread .keylen, hread .p, hread .outlen,
    fun i => hread (.msg i), fun i => hread (.digest i), fun i => hread (.out i), fun i => hread (.key i),
    fun i => hread (.sec i), fun _ _ h => step_read_error s h⟩

/-- Settles O39: each writable register by the store at its address, `CMD` by the command it runs. -/
theorem writesReachRegisters : Obligations.WritesReachRegisters := by
  intro s v
  have hwrite : ∀ r : Reg, r ≠ .cmd → r ≠ .seclen → r.writable = true → WriteGives s r.addr v (storeReg r v s) :=
    fun r hcmd hseclen hr =>
      writeGives_addr r v s hcmd ((writeRefused_eq_false r v).2 ⟨hr, fun e => absurd e hseclen⟩)
  refine ⟨hwrite .ctr nofun nofun rfl, fun hv => ?seclen, ?p, fun i => ?msg, fun i => ?digest, fun i => ?sec, ?cmd,
    fun _ _ h => step_write_error s h⟩
  case seclen =>
    rw [← storeReg_seclen]
    exact writeGives_addr .seclen v s nofun ((writeRefused_eq_false .seclen v).2 ⟨rfl, fun _ => hv⟩)
  case p =>
    rw [← storeReg_p]
    exact hwrite .p nofun nofun rfl
  case msg =>
    rw [← storeReg_msg]
    exact hwrite (.msg i) nofun nofun rfl
  case digest =>
    rw [← storeReg_digest]
    exact hwrite (.digest i) nofun nofun rfl
  case sec =>
    rw [← storeReg_sec]
    exact hwrite (.sec i) nofun nofun rfl
  case cmd =>
    obtain ⟨t, hrun, -, ht⟩ := writeGives_cmd v s
    exact ⟨t, hrun, ht⟩

/-- Settles O40: the conditions are exactly those under which a transaction reaches no register. -/
theorem accessErrorsAndNoOthers : Obligations.AccessErrorsAndNoOthers :=
  fun s _ _ => ⟨step_read_error s, step_read_data s, fun _ => step_write_error s, fun _ => step_write_ok s⟩

end Sys2Proof.Machine
end

section
/-! PROOFS, family 30_encoding.md: a write to `CMD` runs the command its word encodes. -/

namespace Sys2Proof.Machine

/-- 30_encoding.md R72: the opcode map gives each command's opcode back its command. -/
theorem decodeOpcode_opcodeOf (i : Instr) : decodeOpcode (opcodeOf i).toNat = some i := by cases i <;> rfl

/-- 30_encoding.md R71: the words that decode to a command are those with its two fields. -/
theorem decode_eq_ok_iff (w : Word) (i : Instr) :
    decode w = .ok i ↔ w.extractLsb' 8 24 = 0#24 ∧ w.extractLsb' 0 8 = opcodeOf i := by
  refine ⟨decode_ok, fun ⟨hmbz, hop⟩ => ?_⟩
  unfold decode
  rw [if_pos hmbz, hop, decodeOpcode_opcodeOf]

/-- A pending write to `CMD` runs its word, and the write is answered `OK` (R53, R71). -/
theorem step_commandWrite {s : State} {w : Word} {rest : List Event} (h : s.pending = commandWrite w :: rest) :
    step s = runCommand w { s with pending := rest, resp := .ok } :=
  (step_transact h).trans (regWrite_cmd w { s with pending := rest })

theorem runCommand_of_decode_ok {w : Word} {i : Instr} (h : decode w = .ok i) (s : State) :
    runCommand w s = exec i s := by
  simp [runCommand, h]

theorem runCommand_of_decode_ne_ok {w : Word} (h : ∀ i, decode w ≠ .ok i) (s : State) :
    runCommand w s = .next (illegalCommand s) := by
  obtain ⟨i, hi, -⟩ | ⟨-, hrun⟩ := runCommand_cases w s
  · exact absurd hi (h i)
  · exact hrun

/-- Settles O3: the step runs the written word, and the two field conditions say whether that word decodes. -/
theorem commandWriteExecutesItsWord : Obligations.CommandWriteExecutesItsWord := by
  intro s w rest hpending
  have hstep : step s = runCommand w { s with pending := rest, resp := .ok } := step_commandWrite hpending
  constructor
  case left =>
    intro i hmbz hop
    have hdecode : decode w = .ok i := (decode_eq_ok_iff w i).2 ⟨hmbz, hop⟩
    exact hstep.trans (runCommand_of_decode_ok hdecode _)
  case right =>
    intro hnone
    have hdecode : ∀ i, decode w ≠ .ok i := fun i hi => hnone i ((decode_eq_ok_iff w i).1 hi)
    exact hstep.trans (runCommand_of_decode_ne_ok hdecode _)

end Sys2Proof.Machine
end

section
/-! PROOFS, family 40_base32_decode.md: the alphabet, the checks of `B32DEC` in their order, and the key it stores. -/

namespace Sys2Proof.Machine

open Sys2Proof.Safety

/-! ### The alphabet (R90, R92) -/

theorem symbolVal_letter {v : BitVec 5} (h : v.toNat ≤ 25) :
    symbolVal (BitVec.ofNat 8 (0x41 + v.toNat)) = some v := by
  have hc : (BitVec.ofNat 8 (0x41 + v.toNat)).toNat = 0x41 + v.toNat := by
    rw [BitVec.toNat_ofNat]
    omega
  rw [symbolVal, hc, if_pos (by omega), Nat.add_sub_cancel_left, BitVec.ofNat_toNat, BitVec.setWidth_eq]

theorem symbolVal_digit {v : BitVec 5} (h : 26 ≤ v.toNat) :
    symbolVal (BitVec.ofNat 8 (0x32 + (v.toNat - 26))) = some v := by
  have hv : v.toNat < 32 := v.isLt
  have hc : (BitVec.ofNat 8 (0x32 + (v.toNat - 26))).toNat = 0x32 + (v.toNat - 26) := by
    rw [BitVec.toNat_ofNat]
    omega
  rw [symbolVal, hc, if_neg (by omega), if_pos (by omega), Nat.add_sub_cancel_left, Nat.sub_add_cancel h,
    BitVec.ofNat_toNat, BitVec.setWidth_eq]

/-- Every symbol value has its character. -/
theorem symbolVal_symbolChar (v : BitVec 5) : symbolVal (symbolChar v) = some v := by
  unfold symbolChar
  split
  case isTrue h => exact symbolVal_letter h
  case isFalse h => exact symbolVal_digit (by omega)

/-- A byte with a value is the character of that value. -/
theorem eq_symbolChar_of_symbolVal {c : Byte} {v : BitVec 5} (h : symbolVal c = some v) : c = symbolChar v := by
  apply BitVec.eq_of_toNat_eq
  unfold symbolVal at h
  split at h
  case isTrue hletter =>
    cases h
    have hv : (BitVec.ofNat 5 (c.toNat - 0x41)).toNat = c.toNat - 0x41 := by
      rw [BitVec.toNat_ofNat]
      omega
    rw [symbolChar, hv, if_pos (by omega), BitVec.toNat_ofNat]
    omega
  case isFalse =>
    split at h
    case isTrue hdigit =>
      cases h
      have hv : (BitVec.ofNat 5 (c.toNat - 0x32 + 26)).toNat = c.toNat - 0x32 + 26 := by
        rw [BitVec.toNat_ofNat]
        omega
      rw [symbolChar, hv, if_neg (by omega), BitVec.toNat_ofNat]
      omega
    case isFalse => cases h

/-- Settles O6: letters and digits have their values, and a byte with a value is one of their characters. -/
theorem alphabetClosedForm : Obligations.AlphabetClosedForm := by
  refine ⟨fun v => symbolVal_letter, fun v => symbolVal_digit, fun c hc => ?_⟩
  obtain ⟨v, hv⟩ := Option.ne_none_iff_exists'.1 hc
  exact ⟨v, eq_symbolChar_of_symbolVal hv⟩

/-! ### The checks as properties of the text (R94 to R98) -/

theorem padCountValid_iff (c : Nat) : padCountValid c = true ↔ c ∈ [6, 4, 3, 1, 0] := by
  simp [padCountValid, or_assoc]

theorem lastArePads_iff (text : List Byte) (c : Nat) : lastArePads text c = true ↔ PadsTrail text c := by
  unfold lastArePads PadsTrail
  simp only [List.all_eq_true, beq_iff_eq, List.forall_mem_iff_getElem, List.getElem_drop, List.length_drop, padChar]
  constructor
  · intro h j hlo hhi
    have hj := h (j - (text.length - c)) (by omega)
    simp only [Nat.add_sub_cancel' hlo] at hj
    rw [List.getElem?_eq_getElem hhi, hj]
  · intro h i hi
    exact (List.getElem?_eq_some_iff.1 (h (text.length - c + i) (by omega) (by omega))).2

/-- No pad characters are always the last ones. -/
theorem padsTrail_zero (text : List Byte) : PadsTrail text 0 := by
  intro j hlo hhi
  omega

/-- The placement is checked for every valid count but zero. -/
theorem padPlaceChecked_of_ne_zero {c : Nat} (hcount : c ∈ [6, 4, 3, 1, 0]) (hzero : c ≠ 0) :
    padPlaceChecked c = true := by
  simpa [padPlaceChecked, or_assoc, hzero] using hcount

theorem symbolVals_stripPads_isSome (text : List Byte) :
    (symbolVals (stripPads text)).isSome = true ↔ SymbolsValid text := by
  simp [symbolVals_isSome, stripPads, SymbolsValid, padChar]

theorem secText_eq_nil_iff (s : State) : secText s = [] ↔ s.seclen = 0#9 := by
  simp [secText, List.take_eq_nil_iff, BitVec.toNat_eq]

/-! ### The outcome of a decode by the first check that fails (R93) -/

theorem decodeSecret_nil : decodeSecret [] = .absent .empty := rfl

section
variable {text : List Byte}

theorem decodeSecret_padCount (hne : text ≠ []) (hcount : text.count 0x3D#8 ∉ [6, 4, 3, 1, 0]) :
    decodeSecret text = .absent .padCount := by
  have hvalid : padCountValid (padCountOf text) = false :=
    Bool.eq_false_iff.2 (mt (padCountValid_iff _).1 hcount)
  rw [decodeSecret, if_neg hne, if_pos hvalid]

theorem decodeSecret_padPlace (hne : text ≠ []) (hcount : text.count 0x3D#8 ∈ [6, 4, 3, 1, 0])
    (hplace : ¬ PadsTrail text (text.count 0x3D#8)) : decodeSecret text = .absent .padPlace := by
  have hvalid : padCountValid (padCountOf text) = true := (padCountValid_iff _).2 hcount
  have hzero : text.count 0x3D#8 ≠ 0 := fun h0 => hplace (h0 ▸ padsTrail_zero text)
  have hchecked : padPlaceChecked (padCountOf text) = true := padPlaceChecked_of_ne_zero hcount hzero
  have hlast : lastArePads text (padCountOf text) = false := Bool.eq_false_iff.2 (mt (lastArePads_iff _ _).1 hplace)
  rw [decodeSecret, if_neg hne, if_neg (by simp [hvalid]), if_pos (by simp [hchecked, hlast])]

theorem decodeSecret_badChar (hne : text ≠ []) (hcount : text.count 0x3D#8 ∈ [6, 4, 3, 1, 0])
    (hplace : PadsTrail text (text.count 0x3D#8)) (hsymbols : ¬ SymbolsValid text) :
    decodeSecret text = .absent .badChar := by
  have hnone : symbolVals (stripPads text) = none :=
    Option.not_isSome_iff_eq_none.1 (mt (symbolVals_stripPads_isSome text).1 hsymbols)
  rw [decodeSecret_passed hne ((padCountValid_iff _).2 hcount) ((lastArePads_iff _ _).2 hplace), hnone]

theorem decodeSecret_of_checks (hne : text ≠ []) (hcount : text.count 0x3D#8 ∈ [6, 4, 3, 1, 0])
    (hplace : PadsTrail text (text.count 0x3D#8)) (hsymbols : SymbolsValid text) :
    ∃ bytes, decodeSecret text = .present bytes := by
  obtain ⟨vs, hvs⟩ := Option.isSome_iff_exists.1 ((symbolVals_stripPads_isSome text).2 hsymbols)
  rw [decodeSecret_passed hne ((padCountValid_iff _).2 hcount) ((lastArePads_iff _ _).2 hplace), hvs]
  exact ⟨_, rfl⟩

end

/-- R93's placement of the bits: position `8 j + b` of the symbols is bit `b` of byte `j`, first bit first. -/
theorem decodeSecret_bit {text bytes : List Byte} (h : decodeSecret text = .present bytes) {j : Nat}
    (hj : j < bytes.length) (b : Fin 8) :
    (bytes.getD j 0#8).getLsbD (7 - b.val) =
      (dataSymbol text ((8 * j + b.val) / 5)).getLsbD (4 - (8 * j + b.val) % 5) := by
  obtain ⟨vs, hvs, rfl, hlen⟩ := decodeSecret_present h
  have hvslen : vs.length = (stripPads text).length := symbolVals_length hvs
  have hq : 8 * j + b.val < 5 * vs.length := by omega
  have hsym : vs.getD ((8 * j + b.val) / 5) 0#5 = dataSymbol text ((8 * j + b.val) / 5) :=
    symbolVals_getD hvs _ (by omega)
  rw [sliceBytes_bit _ j b hj, symbolsBits_bit vs _ hq, hsym]

/-! ### `B32DEC` (R104, R105) -/

theorem dropKey_eq_withoutKey (c : Cause) (s : State) : dropKey c s = withoutKey c s := by
  rw [dropKey, fill_nil]
  rfl

theorem exec_b32dec_absent {s : State} {c : Cause} (h : decodeSecret (secText s) = .absent c) :
    exec .b32dec s = .next (withoutKey c s) := by
  rw [exec_b32dec, b32dec, h, ← dropKey_eq_withoutKey]

theorem exec_b32dec_present {s : State} {bytes : List Byte} (h : decodeSecret (secText s) = .present bytes) :
    exec .b32dec s = .next (storeKey bytes s) := by
  rw [exec_b32dec, b32dec, h]

theorem storeKey_keylen_toNat {bytes : List Byte} (h : bytes.length ≤ 160) (s : State) :
    (storeKey bytes s).keylen.toNat = bytes.length := by
  rw [storeKey_keylen, BitVec.toNat_ofNat]
  omega

theorem storeKey_key_getElem (bytes : List Byte) (s : State) (j : Fin 160) :
    (storeKey bytes s).key[j] = bytes.getD j.val 0#8 :=
  fill_getElem 160 bytes j.val j.isLt

/-- Settles O7: the first check that fails fixes the decode's outcome, and an absent key is `withoutKey`. -/
theorem decodeFailureCause : Obligations.DecodeFailureCause := by
  intro s text htext
  obtain rfl : text = secText s := htext
  have hne : s.seclen ≠ 0#9 → secText s ≠ [] := mt (secText_eq_nil_iff s).1
  refine ⟨fun hempty => ?_, fun hlen hcount => ?_, fun hlen hcount hplace => ?_,
    fun hlen hcount hplace hsymbols => ?_⟩
  · exact exec_b32dec_absent (((secText_eq_nil_iff s).2 hempty).symm ▸ decodeSecret_nil)
  · exact exec_b32dec_absent (decodeSecret_padCount (hne hlen) hcount)
  · exact exec_b32dec_absent (decodeSecret_padPlace (hne hlen) hcount hplace)
  · exact exec_b32dec_absent (decodeSecret_badChar (hne hlen) hcount hplace hsymbols)

/-- Settles O8: with every check passed the decode gives bytes, whose bits are those of the symbols, and `storeKey`
keeps them with zeros behind. -/
theorem decodeSuccessStoresKey : Obligations.DecodeSuccessStoresKey := by
  intro s text k htext hk hlen hcount hplace hsymbols
  obtain rfl : text = secText s := htext
  obtain ⟨bytes, hbytes⟩ := decodeSecret_of_checks (mt (secText_eq_nil_iff s).1 hlen) hcount hplace hsymbols
  obtain ⟨_, -, -, hlength⟩ := decodeSecret_present hbytes
  have hbyteCount : bytes.length = k := hlength.trans hk.symm
  refine ⟨storeKey bytes s, exec_b32dec_present hbytes, ?_, fun j b hj => ?_, fun j hj => ?_, rfl⟩
  · rw [storeKey_keylen_toNat (decodeSecret_length_le hbytes), hbyteCount]
  · rw [storeKey_key_getElem]
    exact decodeSecret_bit hbytes (by omega) b
  · rw [storeKey_key_getElem]
    exact List.getD_eq_default _ _ (by omega)

end Sys2Proof.Machine
end

section
/-! PROOFS, family 41_hmac_sha1.md: the counter message, SHA-1 as the spec's recurrences, and HMAC. -/

namespace Sys2Proof.Machine

/-! ### The padded message (R111) -/

theorem sha1Pad_length_eq_blocks (b : List Byte) : (sha1Pad b).length = 64 * sha1BlockCount b.length := by
  rw [sha1Pad_length, sha1ZeroCount, sha1BlockCount]
  omega

/-- Fewer zero bytes than the padding's do not reach the residue 56. -/
theorem sha1ZeroCount_least {len z : Nat} (hz : z < sha1ZeroCount len) : (len + 1 + z) % 64 ≠ 56 := by
  have hlt := sha1ZeroCount_lt len
  have hmod := sha1ZeroCount_mod len
  omega

/-- Settles O14: the zero bytes are `sha1ZeroCount` many, the least count that fills the last block. -/
theorem sha1PaddingForm : Obligations.Sha1PaddingForm := by
  intro b
  have hform : sha1Pad b =
      b ++ [0x80#8] ++ List.replicate (sha1ZeroCount b.length) 0#8 ++ beBytes 8 (8 * b.length) := by
    simp [sha1Pad]
  exact ⟨sha1ZeroCount b.length, sha1ZeroCount_mod b.length, fun _ => sha1ZeroCount_least, hform,
    sha1Pad_length_eq_blocks b⟩

/-! ### The message schedule (R114) -/

theorem extendW_drop (n : Nat) (ws : List Word) : (extendW n ws).drop n = ws := by
  induction n generalizing ws with
  | zero => rfl
  | succ n ih => rw [extendW, ← List.drop_drop, ih, List.drop_one, List.tail_cons]

theorem nextW_drop (ws : List Word) (k : Nat) :
    nextW (ws.drop k) =
      (ws.getD (k + 2) 0 ^^^ ws.getD (k + 7) 0 ^^^ ws.getD (k + 13) 0 ^^^ ws.getD (k + 15) 0).rotateLeft 1 := by
  simp [nextW]

/-- Each new word of an extension is `nextW` of the words behind it, which are older. -/
theorem extendW_getD_new (n : Nat) (ws : List Word) {i : Nat} (hi : i < n) :
    (extendW n ws).getD i 0 = nextW ((extendW n ws).drop (i + 1)) := by
  induction n generalizing ws with
  | zero => omega
  | succ n ih =>
    rw [extendW]
    by_cases hlast : i = n
    · subst hlast
      calc (extendW i (nextW ws :: ws)).getD i 0
        _ = nextW ws := extendW_old i (nextW ws :: ws) 0 (by simp)
        _ = nextW ((extendW i (nextW ws :: ws)).drop (i + 1)) := by rw [← List.drop_drop, extendW_drop]; rfl
    · exact ih (nextW ws :: ws) (by omega)

section
variable {m : List Word}

theorem schedule_length (hm : m.length = 16) : (schedule m).length = 80 := by
  simp [schedule, extendW_length, hm]

/-- The schedule is its extension read from the other end. -/
theorem schedule_getD (hm : m.length = 16) {t : Nat} (ht : t < 80) :
    (schedule m).getD t 0 = (extendW 64 m.reverse).getD (79 - t) 0 := by
  have hlen : (extendW 64 m.reverse).length = 80 := by rw [extendW_length, List.length_reverse, hm]
  rw [schedule, List.getD_reverse t (by omega), hlen]

theorem schedule_getD_block (hm : m.length = 16) {t : Nat} (ht : t < 16) :
    (schedule m).getD t 0 = m.getD t 0 := by
  have hold : 79 - t = 64 + (15 - t) := by omega
  rw [schedule_getD hm (by omega), hold, extendW_old 64 _ _ (by rw [List.length_reverse]; omega),
    List.getD_reverse _ (by omega), hm]
  congr 1
  omega

/-- The recurrence of R114: the word made from those 3, 8, 14 and 16 places before it. -/
theorem schedule_getD_new (hm : m.length = 16) {t : Nat} (hlo : 16 ≤ t) (hhi : t < 80) :
    (schedule m).getD t 0 =
      ((schedule m).getD (t - 3) 0 ^^^ (schedule m).getD (t - 8) 0 ^^^ (schedule m).getD (t - 14) 0 ^^^
        (schedule m).getD (t - 16) 0).rotateLeft 1 := by
  have hback : ∀ j, j ≤ 15 → (schedule m).getD (t - (j + 1)) 0 =
      (extendW 64 m.reverse).getD (79 - t + 1 + j) 0 := by
    intro j hj
    rw [schedule_getD hm (by omega)]
    congr 1
    omega
  rw [schedule_getD hm hhi, extendW_getD_new 64 _ (by omega), nextW_drop, hback 2 (by omega), hback 7 (by omega),
    hback 13 (by omega), hback 15 (by omega)]

end

/-- Settles O15: the block's own words first, then the words of the extension. -/
theorem sha1ScheduleRecurrence : Obligations.Sha1ScheduleRecurrence :=
  fun _ hm => ⟨schedule_length hm, fun _ => schedule_getD_block hm,
    fun _ hlo hhi => schedule_getD_new hm hlo (by omega)⟩

/-! ### The rounds of the compression (R115, R116) -/

/-- Settles O16: in each range of rounds, the branch of `roundF` and `roundK` its bounds choose. -/
theorem sha1RoundFunctions : Obligations.Sha1RoundFunctions := by
  intro t x y z
  unfold roundF roundK
  refine ⟨fun hhi => ?choose, fun hlo hhi => ?parity, fun hlo hhi => ?majority, fun hlo hhi => ?lastParity⟩
  case choose =>
    have h20 : t < 20 := by omega
    simp only [h20, if_true, and_self]
  case parity =>
    have h20 : ¬ t < 20 := by omega
    have h40 : t < 40 := by omega
    simp only [h20, h40, if_true, if_false, and_self]
  case majority =>
    have h20 : ¬ t < 20 := by omega
    have h40 : ¬ t < 40 := by omega
    have h60 : t < 60 := by omega
    simp only [h20, h40, h60, if_true, if_false, and_self]
  case lastParity =>
    have h20 : ¬ t < 20 := by omega
    have h40 : ¬ t < 40 := by omega
    have h60 : ¬ t < 60 := by omega
    simp only [h20, h40, h60, if_false, and_self]

/-- The working variables before each round, from the hash `h` and the schedule words `ws` (R116). -/
def workingVars (h : Hash) (ws : List Word) : Nat → Hash
  | 0 => h
  | t + 1 => sha1Round t (ws.getD t 0) (workingVars h ws t)

/-- A sequence whose every step is a round reaches at its end what the rounds compute. -/
theorem sha1Rounds_eq_of_steps (v : Nat → Hash) (ws : List Word) (t : Nat)
    (hstep : ∀ i < ws.length, v (t + i + 1) = sha1Round (t + i) (ws.getD i 0) (v (t + i))) :
    sha1Rounds t ws (v t) = v (t + ws.length) := by
  induction ws generalizing t with
  | nil => rfl
  | cons w ws ih =>
    have hfirst : v (t + 1) = sha1Round t w (v t) := hstep 0 (by simp)
    have hrest : ∀ i < ws.length, v (t + 1 + i + 1) = sha1Round (t + 1 + i) (ws.getD i 0) (v (t + 1 + i)) := by
      intro i hi
      have h := hstep (i + 1) (by simpa using hi)
      rwa [List.getD_cons_succ, ← Nat.add_assoc, Nat.add_right_comm t i 1] at h
    rw [sha1Rounds, ← hfirst, ih (t + 1) hrest, List.length_cons, Nat.add_right_comm, Nat.add_assoc]

theorem sha1Rounds_eq_workingVars (h : Hash) (ws : List Word) :
    sha1Rounds 0 ws h = workingVars h ws ws.length := by
  have hrounds := sha1Rounds_eq_of_steps (workingVars h ws) ws 0 fun i _ => by rw [Nat.zero_add]; rfl
  rwa [Nat.zero_add] at hrounds

theorem compress_eq_workingVars (h : Hash) {m : List Word} (hm : m.length = 16) :
    compress h m =
      let v := workingVars h (schedule m) 80
      ⟨h.a + v.a, h.b + v.b, h.c + v.c, h.d + v.d, h.e + v.e⟩ := by
  rw [compress, sha1Rounds_eq_workingVars, schedule_length hm]

/-- Settles O17: the values are `workingVars`, each one round of the value before. -/
theorem sha1CompressionRounds : Obligations.Sha1CompressionRounds :=
  fun h m hm => ⟨workingVars h (schedule m), rfl, fun _ _ => ⟨rfl, rfl, rfl, rfl, rfl⟩,
    compress_eq_workingVars h hm⟩

/-! ### The blocks of the padded message (R112, R113, R117) -/

theorem wordsOf_length (p : List Byte) : (wordsOf p).length = p.length / 4 := by
  induction p using wordsOf.induct with
  | case1 b0 b1 b2 b3 rest ih => simp [wordsOf, ih]; omega
  | case2 p hshort =>
    have hlt : p.length < 4 := by
      by_contra! hlen
      match p with
      | b0 :: b1 :: b2 :: b3 :: rest => exact hshort b0 b1 b2 b3 rest rfl
    simp [wordsOf, Nat.div_eq_of_lt hlt]

/-- Word `t` is read from bytes `4 t` to `4 t + 3`, most significant first. -/
theorem wordsOf_getElem (p : List Byte) (t : Nat) (ht : t < (wordsOf p).length) :
    (wordsOf p)[t] =
      be32 (p.getD (4 * t) 0#8) (p.getD (4 * t + 1) 0#8) (p.getD (4 * t + 2) 0#8) (p.getD (4 * t + 3) 0#8) := by
  induction p using wordsOf.induct generalizing t with
  | case1 b0 b1 b2 b3 rest ih =>
    cases t with
    | zero => rfl
    | succ t => exact ih t (by simpa [wordsOf] using ht)
  | case2 p hshort => simp [wordsOf] at ht

/-- Block `i` of the padded message, as sixteen big-endian words (R112). -/
def blockWords (p : List Byte) (i : Nat) : List Word :=
  (List.range 16).map fun t =>
    be32 (p.getD (64 * i + 4 * t) 0#8) (p.getD (64 * i + 4 * t + 1) 0#8) (p.getD (64 * i + 4 * t + 2) 0#8)
      (p.getD (64 * i + 4 * t + 3) 0#8)

theorem wordsOf_block {p : List Byte} {i : Nat} (h : 64 * (i + 1) ≤ p.length) :
    ((wordsOf p).drop (16 * i)).take 16 = blockWords p i := by
  have hlen := wordsOf_length p
  apply List.ext_getElem
  · simp [blockWords, hlen]
    omega
  · intro t ht _
    have hbyte : 4 * (16 * i + t) = 64 * i + 4 * t := by omega
    simp [blockWords, wordsOf_getElem, hbyte]

/-- The running hash before each block of a padded message (R113, R117). -/
def runningHash (p : List Byte) : Nat → Hash
  | 0 => sha1Init
  | i + 1 => compress (runningHash p i) (blockWords p i)

/-- A sequence whose every step compresses the next sixteen words reaches at its end what the blocks compute. -/
theorem sha1Blocks_eq_of_steps (H : Nat → Hash) (n k : Nat) (ws : List Word)
    (hstep : ∀ i < n, H (k + i + 1) = compress (H (k + i)) ((ws.drop (16 * i)).take 16)) :
    sha1Blocks n ws (H k) = H (k + n) := by
  induction n generalizing k ws with
  | zero => rfl
  | succ n ih =>
    have hfirst : H (k + 1) = compress (H k) (ws.take 16) := hstep 0 (by omega)
    have hrest : ∀ i < n,
        H (k + 1 + i + 1) = compress (H (k + 1 + i)) (((ws.drop 16).drop (16 * i)).take 16) := by
      intro i hi
      have h := hstep (i + 1) (by omega)
      rwa [← Nat.add_assoc, Nat.add_right_comm k i 1, Nat.mul_succ, Nat.add_comm (16 * i), ← List.drop_drop] at h
    rw [sha1Blocks, ← hfirst, ih (k + 1) (ws.drop 16) hrest, Nat.add_right_comm, Nat.add_assoc]

theorem sha1Blocks_eq_runningHash {p : List Byte} {n : Nat} (hp : p.length = 64 * n) :
    sha1Blocks n (wordsOf p) sha1Init = runningHash p n := by
  have hblocks := sha1Blocks_eq_of_steps (runningHash p) n 0 (wordsOf p) fun i hi => by
    rw [Nat.zero_add, wordsOf_block (by omega)]
    rfl
  rwa [Nat.zero_add] at hblocks

/-- Settles O18: the running hashes are `runningHash`, over as many blocks as the padded message has. -/
theorem sha1BlockByBlock : Obligations.Sha1BlockByBlock := by
  intro b p n hp hn
  subst hp
  have hcount : sha1BlockCount b.length = n := by
    have hlen := sha1Pad_length_eq_blocks b
    omega
  have hdigest : sha1 b = hashBytes (runningHash (sha1Pad b) n) := by
    rw [sha1, hcount, sha1Blocks_eq_runningHash hn]
  exact ⟨runningHash (sha1Pad b), rfl, fun _ _ => rfl, hdigest⟩

/-! ### HMAC (R119 to R121) -/

theorem hmacKeyBlock_append_zeros (k : List Byte) {n : Nat} (h : k.length + n ≤ 64) :
    hmacKeyBlock (k ++ List.replicate n 0#8) = hmacKeyBlock k := by
  have hlen : (k ++ List.replicate n 0#8).length = k.length + n := by simp
  have hzeros : n + (64 - (k.length + n)) = 64 - k.length := by omega
  rw [hmacKeyBlock_short _ (hlen.trans_le h), hmacKeyBlock_short k (by omega), hlen, List.append_assoc,
    List.replicate_append_replicate, hzeros]

/-- A key longer than a block and its hash have one key block. -/
theorem hmacKeyBlock_sha1 (k : List Byte) (h : 64 < k.length) : hmacKeyBlock (sha1 k) = hmacKeyBlock k := by
  have hlen : (sha1 k).length = 20 := sha1_length k
  rw [hmacKeyBlock_short _ (by omega), hmacKeyBlock_long k h, hlen]

/-- Settles O20: the two cases of `K1` are those of the key block, and HMAC is defined from it. -/
theorem hmacConstruction : Obligations.HmacConstruction := by
  intro k m k1 k0 hlong hshort hk0
  have hblock : hmacKeyBlock k = k0 := by
    rw [hk0]
    by_cases h : 64 < k.length
    · rw [hmacKeyBlock_long k h, hlong h, sha1_length]
    · rw [hmacKeyBlock_short k (by omega), hshort (by omega)]
  refine ⟨?_, hmacSha1_length k m⟩
  rw [hmacSha1, hblock]

/-- Settles O21: the cases by the key's length, and equal key blocks give equal HMACs. -/
theorem hmacKeyBlockCases : Obligations.HmacKeyBlockCases := by
  intro k m
  refine ⟨hmacKeyBlock_length k, fun hempty => ?_, fun hlt => hmacKeyBlock_short k (by omega), fun hfull => ?_,
    hmacKeyBlock_long k, fun hlong => ⟨sha1_length k, hmacSha1_congr m (hmacKeyBlock_sha1 k hlong)⟩,
    fun n hn => hmacSha1_congr m (hmacKeyBlock_append_zeros k hn)⟩
  · obtain rfl := List.eq_nil_of_length_eq_zero hempty
    exact hmacKeyBlock_short [] (by simp)
  · rw [hmacKeyBlock_short k (by omega), hfull, Nat.sub_self, List.replicate_zero, List.append_nil]

/-- Settles O22: the two outcomes of `HMAC`, by `KEYV`. -/
theorem hmacCommandResult : Obligations.HmacCommandResult := by
  intro s
  rw [exec_hmac]
  obtain ⟨hkeyv, hresult⟩ | ⟨hkeyv, hresult⟩ := hmac_cases s
  · exact ⟨fun h => by simp [hkeyv] at h,
      fun _ => ⟨_, hmac_digest_toList (keyBytes s) (msgBytes s), congrArg _ hresult⟩⟩
  · exact ⟨fun _ => congrArg _ hresult, fun h => by simp [hkeyv] at h⟩

/-! ### The counter message (R110) -/

/-- Settles O13: `CTRSER` stores `counterMessage`, whose bytes the statement lists, and clears the flags. -/
theorem ctrserWritesCounterMessage : Obligations.CtrserWritesCounterMessage :=
  fun s => exec_ctrser s

end Sys2Proof.Machine
end

section
/-! PROOFS, family 42_truncate_format.md: the truncated value as a number, and the numeral with its padding. -/

namespace Sys2Proof.Machine

/-! ### Dynamic truncation (R140) -/

/-- An element of a buffer, read from its list as the statements do. -/
theorem toList_getD_eq_getElem {n : Nat} (buf : Vector Byte n) {i : Nat} (h : i < n) :
    buf.toList.getD i 0#8 = buf[i] := by
  simp [List.getD_eq_getElem?_getD, h]

/-- The window as a number: four digest bytes from the offset on, first byte most significant. -/
theorem digestWindow_toNat (d : Vector Byte 20) (o : Fin 16) :
    (digestWindow d o).toNat =
      (d.toList.getD o.val 0#8).toNat * 2 ^ 24 + (d.toList.getD (o.val + 1) 0#8).toNat * 2 ^ 16 +
        (d.toList.getD (o.val + 2) 0#8).toNat * 2 ^ 8 + (d.toList.getD (o.val + 3) 0#8).toNat := by
  rw [toList_getD_eq_getElem d (by omega), toList_getD_eq_getElem d (by omega), toList_getD_eq_getElem d (by omega),
    toList_getD_eq_getElem d (by omega)]
  exact be32_toNat _ _ _ _

/-- The mask `0x7FFFFFFF` keeps the low 31 bits of the window. -/
theorem truncated_eq_ofNat (d : Vector Byte 20) :
    truncated d = BitVec.ofNat 31 (digestWindow d (truncOffset d)).toNat :=
  BitVec.eq_of_toNat_eq (by rw [truncated_toNat, BitVec.toNat_ofNat])

/-- Settles O25: the offset is the low nibble, and the window's number modulo `2^31` is `P`. -/
theorem dtruncResult : Obligations.DtruncResult := by
  intro s o d ho hd
  obtain rfl : o = (truncOffset s.digest).val := ho.trans (truncOffset_val s.digest).symm
  rw [exec_dtrunc, hd, hd, hd, hd, ← digestWindow_toNat, ← truncated_eq_ofNat]
  rfl

/-! ### Decimal formatting (R142) -/

/-- The digit count of a 31-bit value: 1 for 0, else the number of digits without leading zeros. -/
theorem digitCount_bitVec (p : BitVec 31) :
    ((p = 0#31 ∧ digitCount 9 p.toNat = 1) ∨
      (p ≠ 0#31 ∧ 10 ^ (digitCount 9 p.toNat - 1) ≤ p.toNat ∧ p.toNat < 10 ^ digitCount 9 p.toNat)) ∧
    1 ≤ digitCount 9 p.toNat ∧ digitCount 9 p.toNat ≤ 10 := by
  have hp : p.toNat < 10 ^ 10 := by omega
  obtain ⟨hlt, hpos, hle, hleading, hzero⟩ := digitCount_spec 9 p.toNat hp
  refine ⟨?_, hpos, hle⟩
  by_cases h : p = 0#31
  · exact .inl ⟨h, hzero (by simp [h])⟩
  · exact .inr ⟨h, hleading (fun h0 => h (BitVec.eq_of_toNat_eq h0)), hlt⟩

section
variable {s : State} {i : Fin 10}

theorem decfmt_out_digit (h : i.val < outputLength s.p.toNat) :
    (decfmt s).out[i].toNat = 0x30 + s.p.toNat / 10 ^ (outputLength s.p.toNat - 1 - i.val) % 10 := by
  rw [decfmt_out_getElem, if_pos h, digitChar_toNat]

theorem decfmt_out_tail (h : outputLength s.p.toNat ≤ i.val) : (decfmt s).out[i] = 0#8 := by
  rw [decfmt_out_getElem, if_neg (Nat.not_lt.2 h)]

end

/-- Settles O27: the number of digits is `digitCount`, the length `outputLength`, and each element of `OUT` is a digit
before the length and zero from it on. -/
theorem decfmtResult : Obligations.DecfmtResult := by
  intro s
  obtain ⟨hdigits, hpos, hle⟩ := digitCount_bitVec s.p
  have hlen : outputLength s.p.toNat = max 6 (digitCount 9 s.p.toNat) := by rw [outputLength, config_digits]
  exact ⟨decfmt s, digitCount 9 s.p.toNat, outputLength s.p.toNat, exec_decfmt s, hdigits, hpos, hle, hlen,
    decfmt_outlen_toNat s, fun _ => decfmt_out_digit, fun _ => decfmt_out_tail, rfl⟩

end Sys2Proof.Machine
end

section
/-! PROOFS, family 43_otp_sequence.md: the two outcomes of `HOTP`, and `CLR`. -/

namespace Sys2Proof.Machine

open Sys2Proof.Safety

/-! ### `HOTP` (R160, R162) -/

section
variable {s : State} {key : List Byte}

/-- After a successful decode `HOTP` is the other four steps in order, the last of them `DECFMT`. -/
theorem hotp_eq_decfmt (h : decodeSecret (secText s) = .present key) :
    hotp s = decfmt (dtrunc (hmac (ctrser (storeKey key s)))) := by
  rw [hotp, b32dec, h]
  rfl

theorem hotp_keylen_toNat (h : decodeSecret (secText s) = .present key) : (hotp s).keylen.toNat = key.length := by
  rw [hotp_present h]
  exact storeKey_keylen_toNat (decodeSecret_length_le h) s

theorem hotp_keyBytes (h : decodeSecret (secText s) = .present key) : keyBytes (hotp s) = key := by
  rw [hotp_present h]
  exact keyBytes_storeKey key s (decodeSecret_length_le h)

theorem hotp_digest_toList (h : decodeSecret (secText s) = .present key) :
    (hotp s).digest.toList = hmacSha1 key (msgBytes (hotp s)) := by
  rw [hotp_present h]
  exact hmac_digest_toList key _

theorem hotp_outText (h : decodeSecret (secText s) = .present key) :
    outText (hotp s) = decimalString (hotp s).p.toNat := by
  rw [hotp_eq_decfmt h, decfmt_p]
  exact decfmt_outText _

theorem hotp_outlen_bounds (h : decodeSecret (secText s) = .present key) :
    6 ≤ (hotp s).outlen.toNat ∧ (hotp s).outlen.toNat ≤ 10 := by
  rw [hotp_eq_decfmt h, decfmt_outlen_toNat]
  exact outputLength_bounds _

end

theorem exec_hotp_absent {s : State} {c : Cause} (h : decodeSecret (secText s) = .absent c) :
    exec .hotp s = .next { withoutKey c s with out := Vector.replicate 10 0#8, outlen := 0#4 } := by
  rw [exec_hotp, hotp_absent h, dropKey_eq_withoutKey, storeOutput, fill_nil]
  rfl

/-- Settles O31: the fields of `hotp_present` with the lengths they are stored with, and the empty string of
`hotp_absent`. -/
theorem hotpResult : Obligations.HotpResult := by
  intro s
  refine ⟨fun key h => ?success, fun _ => exec_hotp_absent⟩
  case success =>
    obtain ⟨hmin, hmax⟩ := hotp_outlen_bounds h
    have hfields := hotp_present h
    refine ⟨hotp s, exec_hotp s, hotp_keyBytes h, ?key, hotp_keylen_toNat h, ?msg, hotp_digest_toList h, ?p,
      hotp_outText h, ?out, hmin, hmax, ?frame⟩
    all_goals rw [hfields]

/-! ### `CLR` (R163) -/

/-- Settles O34: `CLR` clears the block, whose reset values are the zeros the statement lists. -/
theorem clrZeroesBlock : Obligations.ClrZeroesBlock :=
  fun s => exec_clr s

end Sys2Proof.Machine
end

section
/-! PROOFS, family 60_exceptions.md: the flags are overwritten by every command, and the causes of each failure. -/

namespace Sys2Proof.Machine

open Sys2Proof.Safety

/-! ### No command reads the flags (R188) -/

/-- Both outcomes of `B32DEC` write the two flags, and its input is the text alone. -/
theorem b32dec_ignores_flags (e : Bool) (c : Cause) (s : State) :
    b32dec { s with err := e, cause := c } = b32dec s := rfl

theorem exec_ignores_flags (i : Instr) (e : Bool) (c : Cause) (s : State) :
    exec i { s with err := e, cause := c } = exec i s := by
  cases i with
  | hotp => rw [exec_hotp, exec_hotp, hotp, hotp, b32dec_ignores_flags]
  | _ => rfl

theorem runCommand_ignores_flags (w : Word) (e : Bool) (c : Cause) (s : State) :
    runCommand w { s with err := e, cause := c } = runCommand w s := by
  unfold runCommand
  cases decode w with
  | ok i => exact exec_ignores_flags i e c s
  | error _ => rfl

/-- Every command word, legal or illegal, answers a next state (R180). -/
theorem runCommand_next (w : Word) (s : State) : ∃ t, runCommand w s = .next t := by
  obtain ⟨i, -, hrun⟩ | ⟨-, hrun⟩ := runCommand_cases w s
  · obtain ⟨t, ht⟩ := exec_next i s
    exact ⟨t, hrun.trans ht⟩
  · exact ⟨_, hrun⟩

/-- Settles O55: the command has a next state, and it is the same whatever the flags were. -/
theorem failuresDoNotAccumulate : Obligations.FailuresDoNotAccumulate := by
  intro w s e c
  obtain ⟨t, ht⟩ := runCommand_next w s
  exact ⟨t, ht, (runCommand_ignores_flags w e c s).trans ht⟩

/-! ### The cause a decode reports (R183) -/

/-- The cause code of a decode's outcome: `NONE` for a key, else the cause of its absence. -/
def Decoded.cause : Decoded → Cause
  | .present _ => .none
  | .absent c => c

/-- The checks in their order, as equivalences: a cause is reported exactly if its check is the first to fail. -/
theorem decodeSecret_cause_iff (text : List Byte) :
    ((decodeSecret text).cause = .empty ↔ text = []) ∧
    ((decodeSecret text).cause = .padCount ↔ text ≠ [] ∧ text.count 0x3D#8 ∉ [6, 4, 3, 1, 0]) ∧
    ((decodeSecret text).cause = .padPlace ↔
      text ≠ [] ∧ text.count 0x3D#8 ∈ [6, 4, 3, 1, 0] ∧ ¬ PadsTrail text (text.count 0x3D#8)) ∧
    ((decodeSecret text).cause = .badChar ↔ text ≠ [] ∧ text.count 0x3D#8 ∈ [6, 4, 3, 1, 0] ∧
      PadsTrail text (text.count 0x3D#8) ∧ ¬ SymbolsValid text) := by
  by_cases hne : text = []
  case pos => simp [hne, decodeSecret_nil, Decoded.cause]
  by_cases hcount : text.count 0x3D#8 ∈ [6, 4, 3, 1, 0]
  case neg =>
    rw [decodeSecret_padCount hne hcount]
    simp [Decoded.cause, hne, hcount]
  by_cases hplace : PadsTrail text (text.count 0x3D#8)
  case neg =>
    rw [decodeSecret_padPlace hne hcount hplace]
    simp [Decoded.cause, hne, hcount, hplace]
  by_cases hsymbols : SymbolsValid text
  case neg =>
    rw [decodeSecret_badChar hne hcount hplace hsymbols]
    simp [Decoded.cause, hne, hcount, hplace, hsymbols]
  case pos =>
    obtain ⟨bytes, hbytes⟩ := decodeSecret_of_checks hne hcount hplace hsymbols
    rw [hbytes]
    simp [Decoded.cause, hne, hcount, hplace, hsymbols]

section
variable {i : Instr} (hi : i ∈ [Instr.b32dec, .hotp])
include hi

/-- With a key decoded, both decoding commands end in success. -/
theorem exec_decode_present {s : State} {key : List Byte} (h : decodeSecret (secText s) = .present key) :
    ∃ t, exec i s = .next t ∧ t.err = false ∧ t.cause = .none := by
  obtain rfl | rfl : i = .b32dec ∨ i = .hotp := by simpa using hi
  · exact ⟨storeKey key s, exec_b32dec_present h, storeKey_err s key, storeKey_cause s key⟩
  · exact ⟨hotp s, exec_hotp s, by rw [hotp_present h], by rw [hotp_present h]⟩

/-- Without one, both report the decode's cause and leave no key, and `HOTP` leaves no output (R104, R162). -/
theorem exec_decode_absent {s : State} {c : Cause} (h : decodeSecret (secText s) = .absent c) :
    ∃ t, exec i s = .next t ∧ t.cause = c ∧ t.err = true ∧ t.keyv = false ∧ t.keylen = 0#8 ∧
      t.key = Vector.replicate 160 0#8 ∧ (i = .hotp → t.out = Vector.replicate 10 0#8 ∧ t.outlen = 0#4) := by
  obtain rfl | rfl : i = .b32dec ∨ i = .hotp := by simpa using hi
  · exact ⟨_, exec_b32dec_absent h, rfl, rfl, rfl, rfl, rfl, nofun⟩
  · exact ⟨_, exec_hotp_absent h, rfl, rfl, rfl, rfl, rfl, fun _ => ⟨rfl, rfl⟩⟩

/-- A decoding command reports the cause of its decode, with the flags and registers of that outcome. -/
theorem exec_decode_result (s : State) :
    ∃ t, exec i s = .next t ∧ t.cause = (decodeSecret (secText s)).cause ∧
      ((t.err = false ∧ t.cause = .none) ∨
        (t.cause ∈ [Cause.empty, .padCount, .padPlace, .badChar] ∧ t.err = true ∧ t.keyv = false ∧
          t.keylen = 0#8 ∧ t.key = Vector.replicate 160 0#8 ∧
          (i = .hotp → t.out = Vector.replicate 10 0#8 ∧ t.outlen = 0#4))) := by
  cases h : decodeSecret (secText s) with
  | present key =>
    obtain ⟨t, hexec, herr, hcause⟩ := exec_decode_present hi h
    exact ⟨t, hexec, hcause, .inl ⟨herr, hcause⟩⟩
  | absent c =>
    obtain ⟨t, hexec, hcause, hwritten⟩ := exec_decode_absent hi h
    have hmem : t.cause ∈ [Cause.empty, .padCount, .padPlace, .badChar] := by
      simpa [hcause] using decodeSecret_absent h
    exact ⟨t, hexec, hcause, .inr ⟨hmem, hwritten⟩⟩

end

/-! ### The commands without a decode, and the illegal command (R181) -/

theorem exec_hmac_failure (s : State) : ∃ t, exec .hmac s = .next t ∧ (t.err = true ↔ s.keyv = false) ∧
    (t.err = true → t = { s with err := true, cause := .noKey }) := by
  obtain ⟨hkeyv, hresult⟩ | ⟨hkeyv, hresult⟩ := hmac_cases s
  · exact ⟨hmac s, exec_hmac s, by simp [hresult, hkeyv], by simp [hresult]⟩
  · exact ⟨hmac s, exec_hmac s, by simp [hresult, hkeyv], fun _ => hresult⟩

theorem exec_never_fails {i : Instr} (hi : i ∈ [Instr.ctrser, .dtrunc, .decfmt, .clr]) (s : State) :
    ∃ t, exec i s = .next t ∧ t.err = false := by
  obtain rfl | rfl | rfl | rfl : i = .ctrser ∨ i = .dtrunc ∨ i = .decfmt ∨ i = .clr := by simpa using hi
  · exact ⟨_, exec_ctrser s, ctrser_err s⟩
  · exact ⟨_, exec_dtrunc s, dtrunc_err s⟩
  · exact ⟨_, exec_decfmt s, decfmt_err s⟩
  · exact ⟨_, exec_clr s, (clearBlock_err s).trans reset_err⟩

/-- A word that decodes to a command is well formed (30_encoding.md R71). -/
theorem wordWf_of_decode_ok {w : Word} {i : Instr} (h : decode w = .ok i) : wordWf w = true := by
  obtain ⟨hmbz, hop⟩ := decode_ok h
  rw [wordWf, wordMbzOk, wordOpcodeOk, hmbz, hop]
  cases i <;> rfl

theorem runCommand_of_not_wordWf {w : Word} (h : wordWf w = false) (s : State) :
    runCommand w s = .next (illegalCommand s) :=
  runCommand_of_decode_ne_ok (fun _ hi => Bool.eq_false_iff.1 h (wordWf_of_decode_ok hi)) s

/-- Settles O56: the decoding commands report their decode's cause, whose conditions are those of
`decodeSecret_cause_iff`; the others fail as their own lemmas say. -/
theorem failureCausesPerCommand : Obligations.FailureCausesPerCommand := by
  intro s text htext
  obtain rfl : text = secText s := htext
  refine ⟨fun i hi => ?decoding, exec_hmac_failure s, fun i hi => exec_never_fails hi s,
    fun w hw => runCommand_of_not_wordWf hw s⟩
  case decoding =>
    obtain ⟨t, hexec, hcause, hwritten⟩ := exec_decode_result hi s
    obtain ⟨hempty, hpadCount, hpadPlace, hbadChar⟩ := decodeSecret_cause_iff (secText s)
    rw [← hcause] at hempty hpadCount hpadPlace hbadChar
    simp only [ne_eq, secText_eq_nil_iff] at hempty hpadCount hpadPlace hbadChar
    exact ⟨t, hexec, hempty, hpadCount, hpadPlace, hbadChar, hwritten⟩

end Sys2Proof.Machine
end

section
/-! PROOFS, family 70_reset_and_hazards.md: a reset leaves the reset state of the block. -/

namespace Sys2Proof.Machine

open Sys2Proof.Safety

/-- 70_reset_and_hazards.md R210: nothing the block held before a reset is left after it. -/
theorem applyReset_sameBlock_reset (s : State) : SameBlock (applyReset s) State.reset where
  keyv := applyReset_keyv s
  err := applyReset_err s
  cause := applyReset_cause s
  ctr := applyReset_ctr s
  seclen := applyReset_seclen s
  sec := applyReset_sec s
  keylen := applyReset_keylen s
  key := applyReset_key s
  msg := applyReset_msg s
  digest := applyReset_digest s
  p := applyReset_p s
  outlen := applyReset_outlen s
  out := applyReset_out s

/-- Settles O47: the step is `applyReset`, whatever transaction the event carries. -/
theorem resetOverridesTransaction : Obligations.ResetOverridesTransaction := by
  intro s during rest hpending
  exact ⟨applyReset { s with pending := rest }, step_reset hpending, applyReset_sameBlock_reset _, readReg_id _⟩

end Sys2Proof.Machine
end

section
/-! PROOFS, encoding: decoding and encoding agree, and how a placed command comes to run (spec 30_encoding.md). -/

namespace Sys2Proof.Machine

/-! ### Decoding and encoding (R70 to R73) -/

/-- A command word is its two fields, the upper one first (R70). -/
theorem word_eq_append_fields (w : Word) : w = w.extractLsb' 8 24 ++ w.extractLsb' 0 8 := by
  rw [BitVec.extractLsb'_append_extractLsb'_eq_extractLsb' (by omega), BitVec.extractLsb'_eq_self]

/-- A word that decodes to a command is that command's word. -/
theorem eq_encode_of_decode_ok {w : Word} {i : Instr} (h : decode w = .ok i) : w = encode i := by
  obtain ⟨hmbz, hop⟩ := decode_ok h
  rw [word_eq_append_fields w, hmbz, hop, encode]

/-- Each opcode from 1 to 7 selects a command (R72). -/
theorem exists_decodeOpcode {op : Nat} (hlo : 1 ≤ op) (hhi : op ≤ 7) : ∃ i, decodeOpcode op = some i := by
  interval_cases op <;> exact ⟨_, rfl⟩

/-- The two checks of a word are those the decoder makes. -/
theorem exists_decode_ok_of_wordWf {w : Word} (h : wordWf w = true) : ∃ i, decode w = .ok i := by
  obtain ⟨hmbz, hop⟩ : w.extractLsb' 8 24 = 0#24 ∧
      (1 ≤ (w.extractLsb' 0 8).toNat ∧ (w.extractLsb' 0 8).toNat ≤ 7) := by
    simpa [wordWf, wordMbzOk, wordOpcodeOk] using h
  obtain ⟨i, hi⟩ := exists_decodeOpcode hop.1 hop.2
  exact ⟨i, by rw [decode, if_pos hmbz, hi]⟩

/-- Settles O2: both directions by the two fields of a word, and the well-formed words by the same two checks. -/
theorem decodeEncodeAgree : Obligations.DecodeEncodeAgree := by
  have hencode : ∀ i : Instr, decode (encode i) = .ok i ∧ wordWf (encode i) = true :=
    fun i => ⟨decode_encode i, wordWf_of_decode_ok (decode_encode i)⟩
  exact ⟨fun i _ => hencode i, fun _ _ => eq_encode_of_decode_ok,
    fun _ => ⟨exists_decode_ok_of_wordWf, fun ⟨_, hi⟩ => wordWf_of_decode_ok hi⟩⟩

/-- Settles O1: the seven words by the decoder's own lemmas, the three others by evaluation. -/
theorem commandWordsDecode : Obligations.CommandWordsDecode :=
  ⟨decode_b32dec, decode_ctrser, decode_hmac, decode_dtrunc, decode_decfmt, decode_hotp, decode_clr, rfl, rfl, rfl⟩

/-! ### The step and the command it runs -/

theorem decode_of_decodeTableWord {nbits w : Nat} {i : Instr} (h : decodeTableWord nbits w = some i) :
    decode (BitVec.ofNat 32 (w % 2 ^ nbits)) = .ok i := by
  unfold decodeTableWord at h
  cases hdecode : decode (BitVec.ofNat 32 (w % 2 ^ nbits)) with
  | ok j => simpa [hdecode] using h
  | error e => simp [hdecode] at h

/-- Settles O4: a command placed by the host is a pending write to `CMD` before all other events. -/
theorem stepRunsDecodedInstruction : Obligations.StepRunsDecodedInstruction := by
  refine ⟨fun s w i rest hpending hdecode _ => ?pending, fun s nbits w i htable _ => ?placed⟩
  case pending => exact (step_commandWrite hpending).trans (runCommand_of_decode_ok hdecode _)
  case placed =>
    exact (step_commandWrite (s := s.withFetchWord nbits w) rfl).trans
      (runCommand_of_decode_ok (decode_of_decodeTableWord htable) _)

/-- Settles O5: an empty queue leaves the step nothing to deliver. -/
theorem idleStepKeepsState : Obligations.IdleStepKeepsState :=
  fun _ => step_idle

end Sys2Proof.Machine
end

section
/-! PROOFS, commands: what each command writes and leaves unchanged, and what its results depend on (spec
30_encoding.md R74, 10_state.md R23). -/

namespace Sys2Proof.Machine

open Sys2Proof.Safety

/-! ### The frames of the commands with two outcomes -/

section
variable (s : State)

/-- `B32DEC` writes the key registers and the flags in both outcomes. -/
theorem b32dec_frame : b32dec s =
    { s with
      key := (b32dec s).key, keylen := (b32dec s).keylen, keyv := (b32dec s).keyv, err := (b32dec s).err,
      cause := (b32dec s).cause } := by
  obtain ⟨bytes, -, -, hresult⟩ | ⟨c, -, -, hresult⟩ := b32dec_cases s
  · rw [hresult]
    rfl
  · rw [hresult]
    rfl

/-- `HMAC` writes the digest and the flags at most. -/
theorem hmac_frame : hmac s =
    { s with digest := (hmac s).digest, err := (hmac s).err, cause := (hmac s).cause } := by
  obtain ⟨-, hresult⟩ | ⟨-, hresult⟩ := hmac_cases s
  · rw [hresult]
  · rw [hresult]

/-- `HOTP` leaves its operands: the counter and the text. -/
theorem hotp_frame : (hotp s).ctr = s.ctr ∧ (hotp s).seclen = s.seclen ∧ (hotp s).sec = s.sec := by
  obtain ⟨key, hdecode, -, -⟩ | ⟨c, -, -, hresult⟩ := hotp_cases s
  · rw [hotp_present hdecode]
    exact ⟨rfl, rfl, rfl⟩
  · rw [hresult]
    exact ⟨rfl, rfl, rfl⟩

@[simp] theorem b32dec_ctr : (b32dec s).ctr = s.ctr := by rw [b32dec_frame]
@[simp] theorem b32dec_seclen : (b32dec s).seclen = s.seclen := by rw [b32dec_frame]
@[simp] theorem b32dec_sec : (b32dec s).sec = s.sec := by rw [b32dec_frame]
@[simp] theorem b32dec_msg : (b32dec s).msg = s.msg := by rw [b32dec_frame]
@[simp] theorem b32dec_digest : (b32dec s).digest = s.digest := by rw [b32dec_frame]
@[simp] theorem b32dec_p : (b32dec s).p = s.p := by rw [b32dec_frame]
@[simp] theorem b32dec_outlen : (b32dec s).outlen = s.outlen := by rw [b32dec_frame]
@[simp] theorem b32dec_out : (b32dec s).out = s.out := by rw [b32dec_frame]

@[simp] theorem hmac_ctr : (hmac s).ctr = s.ctr := by rw [hmac_frame]
@[simp] theorem hmac_seclen : (hmac s).seclen = s.seclen := by rw [hmac_frame]
@[simp] theorem hmac_sec : (hmac s).sec = s.sec := by rw [hmac_frame]
@[simp] theorem hmac_keyv : (hmac s).keyv = s.keyv := by rw [hmac_frame]
@[simp] theorem hmac_keylen : (hmac s).keylen = s.keylen := by rw [hmac_frame]
@[simp] theorem hmac_key : (hmac s).key = s.key := by rw [hmac_frame]
@[simp] theorem hmac_msg : (hmac s).msg = s.msg := by rw [hmac_frame]
@[simp] theorem hmac_p : (hmac s).p = s.p := by rw [hmac_frame]
@[simp] theorem hmac_outlen : (hmac s).outlen = s.outlen := by rw [hmac_frame]
@[simp] theorem hmac_out : (hmac s).out = s.out := by rw [hmac_frame]

@[simp] theorem hotp_ctr : (hotp s).ctr = s.ctr := (hotp_frame s).1
@[simp] theorem hotp_seclen : (hotp s).seclen = s.seclen := (hotp_frame s).2.1
@[simp] theorem hotp_sec : (hotp s).sec = s.sec := (hotp_frame s).2.2

end

theorem hmac_digest_of_no_key {s : State} (h : s.keyv = false) : (hmac s).digest = s.digest := by
  simp [hmac, h]

/-- A `HOTP` that leaves no key leaves `MSG`, `DIGEST` and `P` (R162). -/
theorem hotp_frame_of_no_key {s : State} (h : (hotp s).keyv = false) :
    (hotp s).msg = s.msg ∧ (hotp s).digest = s.digest ∧ (hotp s).p = s.p := by
  obtain ⟨key, hdecode, -, -⟩ | ⟨c, -, -, hresult⟩ := hotp_cases s
  · rw [hotp_present hdecode] at h
    cases h
  · rw [hresult]
    exact ⟨rfl, rfl, rfl⟩

/-! ### The write set of every command -/

/-- The command an instruction runs, as a function of the state. -/
def effect : Instr → State → State
  | .b32dec => b32dec
  | .ctrser => ctrser
  | .hmac => hmac
  | .dtrunc => dtrunc
  | .decfmt => decfmt
  | .hotp => hotp
  | .clr => clearBlock

theorem exec_eq_effect (i : Instr) (s : State) : exec i s = .next (effect i s) := by cases i <;> rfl

section
variable {i : Instr} (s : State)

theorem effect_inputs (hi : i ≠ .clr) :
    (effect i s).ctr = s.ctr ∧ (effect i s).seclen = s.seclen ∧ (effect i s).sec = s.sec := by
  cases i <;> simp [effect] at hi ⊢

theorem effect_key (hi : i ∉ [Instr.b32dec, .hotp, .clr]) :
    (effect i s).key = s.key ∧ (effect i s).keylen = s.keylen ∧ (effect i s).keyv = s.keyv := by
  cases i <;> simp [effect] at hi ⊢

theorem effect_msg (hi : i ∉ [Instr.ctrser, .hotp, .clr]) : (effect i s).msg = s.msg := by
  cases i <;> simp [effect] at hi ⊢

theorem effect_digest (hi : i ∉ [Instr.hmac, .hotp, .clr]) : (effect i s).digest = s.digest := by
  cases i <;> simp [effect] at hi ⊢

theorem effect_p (hi : i ∉ [Instr.dtrunc, .hotp, .clr]) : (effect i s).p = s.p := by
  cases i <;> simp [effect] at hi ⊢

theorem effect_out (hi : i ∉ [Instr.decfmt, .hotp, .clr]) :
    (effect i s).out = s.out ∧ (effect i s).outlen = s.outlen := by
  cases i <;> simp [effect] at hi ⊢

theorem effect_host_side : (effect i s).pending = s.pending ∧ (effect i s).resp = s.resp :=
  (exec_host_side (exec_eq_effect i s)).symm

end

/-- Settles O53: one lemma per group of registers, and the two conditional frames of `HMAC` and `HOTP`. -/
theorem commandsWriteOnlyTheirRegisters : Obligations.CommandsWriteOnlyTheirRegisters := by
  intro i s t hexec
  obtain rfl : effect i s = t := Host.Outcome.next.inj ((exec_eq_effect i s).symm.trans hexec)
  refine ⟨effect_inputs s, effect_key s, effect_msg s, effect_digest s, ?hmac, effect_p s, effect_out s, ?hotp,
    effect_host_side s⟩
  case hmac =>
    rintro rfl hkeyv
    exact hmac_digest_of_no_key hkeyv
  case hotp =>
    rintro rfl hkeyv
    exact hotp_frame_of_no_key hkeyv

/-! ### The read set of every command -/

/-- The result of a decode depends on the input string alone. -/
theorem b32dec_congr {s s' : State} (h : secText s = secText s') :
    (b32dec s).key = (b32dec s').key ∧ (b32dec s).keylen = (b32dec s').keylen ∧
    (b32dec s).keyv = (b32dec s').keyv ∧ (b32dec s).err = (b32dec s').err ∧
    (b32dec s).cause = (b32dec s').cause := by
  unfold b32dec
  rw [h]
  cases decodeSecret (secText s') with
  | present bytes => exact ⟨rfl, rfl, rfl, rfl, rfl⟩
  | absent c => exact ⟨rfl, rfl, rfl, rfl, rfl⟩

theorem hmac_flags_congr {s s' : State} (h : s.keyv = s'.keyv) :
    (hmac s).err = (hmac s').err ∧ (hmac s).cause = (hmac s').cause := by
  unfold hmac
  rw [h]
  cases s'.keyv with
  | true => exact ⟨rfl, rfl⟩
  | false => exact ⟨rfl, rfl⟩

theorem hmac_digest_of_key {s : State} (h : s.keyv = true) :
    (hmac s).digest = fill 20 (hmacSha1 (keyBytes s) (msgBytes s)) := by
  simp [hmac, h]

/-- With a key the digest depends on the key bytes and the message alone (R123). -/
theorem hmac_digest_congr {s s' : State} (hkeyv : s.keyv = true) (hkeyv' : s'.keyv = true)
    (hkey : keyBytes s = keyBytes s') (hmsg : s.msg = s'.msg) : (hmac s).digest = (hmac s').digest := by
  rw [hmac_digest_of_key hkeyv, hmac_digest_of_key hkeyv', hkey, msgBytes, msgBytes, hmsg]

/-- Settles O23: both commands complete with a digest, of equal key bytes and equal messages. -/
theorem hmacDigestDeterminedByKeyAndMessage : Obligations.HmacDigestDeterminedByKeyAndMessage :=
  fun s s' hkeyv hkeyv' hkey hmsg =>
    ⟨hmac s, hmac s', exec_hmac s, exec_hmac s', hmac_digest_congr hkeyv hkeyv' hkey hmsg⟩

/-- Equal digest bytes at the offset and in the window truncate to one value (R141). -/
theorem truncated_congr {d d' : Vector Byte 20} {o : Fin 16} (ho : o.val = d[19].toNat % 16)
    (ho' : o.val = d'[19].toNat % 16) (hwindow : ∀ k : Fin 4, d[o.val + k.val] = d'[o.val + k.val]) :
    truncated d = truncated d' := by
  obtain rfl : o = truncOffset d := Fin.ext (ho.trans (truncOffset_val d).symm)
  have hoffset : truncOffset d = truncOffset d' := Fin.ext (ho'.trans (truncOffset_val d').symm)
  have hbytes : digestWindow d (truncOffset d) = digestWindow d' (truncOffset d) := by
    unfold digestWindow
    congr 1
    · exact hwindow 0
    · exact hwindow 1
    · exact hwindow 2
    · exact hwindow 3
  rw [truncated, truncated, ← hoffset, hbytes]

section
variable {s s' : State} (hsec : secText s = secText s') (hctr : s.ctr = s'.ctr)
include hsec hctr

/-- The results of `HOTP` depend on the input string and the counter alone; without a key it leaves `MSG`, `DIGEST` and
`P` at their old values, which are no result. -/
theorem hotp_congr : (hotp s).key = (hotp s').key ∧ (hotp s).keylen = (hotp s').keylen ∧
    (hotp s).keyv = (hotp s').keyv ∧ (hotp s).out = (hotp s').out ∧ (hotp s).outlen = (hotp s').outlen ∧
    (hotp s).err = (hotp s').err ∧ (hotp s).cause = (hotp s').cause ∧
    ((hotp s).keyv = true → (hotp s).msg = (hotp s').msg ∧ (hotp s).digest = (hotp s').digest ∧
      (hotp s).p = (hotp s').p) := by
  cases hdecode : decodeSecret (secText s) with
  | present key =>
    rw [hotp_present hdecode, hotp_present (hsec ▸ hdecode), hctr]
    exact ⟨rfl, rfl, rfl, rfl, rfl, rfl, rfl, fun _ => ⟨rfl, rfl, rfl⟩⟩
  | absent c =>
    rw [hotp_absent hdecode, hotp_absent (hsec ▸ hdecode)]
    exact ⟨rfl, rfl, rfl, rfl, rfl, rfl, rfl, nofun⟩

end

/-- `CLR` leaves the same block whatever there was before. -/
theorem clearBlock_sameBlock (s s' : State) : SameBlock (clearBlock s) (clearBlock s') := by
  constructor <;> rfl

/-- Settles O54: each command's results are congruent in its operands. -/
theorem commandsReadOnlyTheirOperands : Obligations.CommandsReadOnlyTheirOperands := by
  intro s s'
  refine ⟨fun hsec => ⟨_, _, rfl, rfl, b32dec_congr hsec⟩, fun hctr => ⟨_, _, rfl, rfl, ?ctrser⟩,
    fun hp => ⟨_, _, rfl, rfl, ?decfmt⟩, fun hsec hctr => ⟨_, _, rfl, rfl, hotp_congr hsec hctr⟩,
    fun hkeyv _ hkey hmsg => ⟨_, _, rfl, rfl, ?hmac⟩,
    fun o hlast ho hwindow => ⟨_, _, rfl, rfl, truncated_congr ho (hlast ▸ ho) hwindow, rfl, rfl⟩,
    ⟨_, _, rfl, rfl, clearBlock_sameBlock s s'⟩⟩
  case ctrser => simp [hctr]
  case decfmt => simp [hp]
  case hmac =>
    obtain ⟨herr, hcause⟩ := hmac_flags_congr hkeyv
    exact ⟨herr, hcause, fun h => hmac_digest_congr h (hkeyv ▸ h) hkey hmsg⟩

/-! ### Totality (R180) -/

theorem step_next (s : State) : ∃ t, step s = .next t := by
  match hpending : s.pending with
  | [] => exact ⟨s, step_idle hpending⟩
  | .transact x :: rest =>
    obtain ⟨t, ht⟩ := transact_next x { s with pending := rest }
    exact ⟨t, (step_transact hpending).trans ht⟩
  | .reset _ :: rest => exact ⟨_, step_reset hpending⟩

/-- Settles O51: every command completes, and so does each kind of event. -/
theorem everyStepAnswersNext : Obligations.EveryStepAnswersNext :=
  ⟨exec_next, step_next⟩

end Sys2Proof.Machine
end

section
/-! PROOFS, state: the layout of `STATUS`, the invariant of reachable states, and what changes `KEYV` (spec
10_state.md). -/

namespace Sys2Proof.Machine

open Sys2Proof.Safety

/-! ### The layout of `STATUS` (R23, R24) -/

/-- The fields of a word put together as `statusWord` puts it: four bits of cause and the two flags. -/
theorem statusWord_fields (c : BitVec 4) (e k : Bool) :
    let w : Word := 0#24 ++ c ++ 0#2 ++ BitVec.ofBool e ++ BitVec.ofBool k
    w.getLsbD 0 = k ∧ w.getLsbD 1 = e ∧ w.extractLsb' 2 2 = 0#2 ∧ w.extractLsb' 4 4 = c ∧
      w.extractLsb' 8 24 = 0#24 := by
  revert c e k
  decide +kernel

/-- Bit 0 of `STATUS` is `KEYV`. -/
theorem statusWord_bit0 (s : State) : (statusWord s).getLsbD 0 = s.keyv :=
  (statusWord_fields s.cause.code s.err s.keyv).1

/-- Settles O43: the fields of the word, and the codes as they are defined. -/
theorem statusLayout : Obligations.StatusLayout := by
  intro s
  obtain ⟨hkeyv, herr, hlow, hcause, hhigh⟩ := statusWord_fields s.cause.code s.err s.keyv
  exact ⟨hkeyv, herr, hlow, hcause, hhigh, rfl, rfl, rfl, rfl, rfl, rfl, rfl⟩

/-! ### The commands keep the invariant (R33) -/

theorem inv_reset : Inv State.reset where
  keylen_le := by simp
  key_tail := fun i _ => getElem_eq_zero_of_eq_replicate reset_key i
  no_key := fun _ => rfl
  outlen_legal := .inl rfl
  out_tail := fun i _ => getElem_eq_zero_of_eq_replicate reset_out i
  out_digits := fun i hi => by simp at hi
  no_leading_zero := fun hi => by simp at hi
  seclen_le := by simp
  p_lt := (inv_always _).1
  err_iff_cause := by simp [Cause.code]
  cause_le := (inv_always _).2.1
  status_reserved := (inv_always _).2.2

/-- Settles O49: every register of the block is zero. -/
theorem invariantHoldsAtReset : Obligations.InvariantHoldsAtReset :=
  inv_reset

/-- The invariant speaks of the block alone, which `CLR` resets. -/
theorem inv_clearBlock (s : State) : Inv (clearBlock s) :=
  inv_respond (inv_pending inv_reset s.pending) s.resp

/-- A 31-bit value of more than six digits has no leading zero. -/
theorem leading_digit_ne_zero {p : BitVec 31} (h : 6 < outputLength p.toNat) :
    p.toNat / 10 ^ (outputLength p.toNat - 1) % 10 ≠ 0 := by
  obtain ⟨hdigits, hpos, -⟩ := digitCount_bitVec p
  have hlen : outputLength p.toNat = digitCount 9 p.toNat := by
    rw [outputLength, config_digits] at h ⊢
    omega
  rw [hlen] at h ⊢
  obtain ⟨-, hone⟩ | ⟨-, hlo, hhi⟩ := hdigits
  · omega
  · have hquot : 1 ≤ p.toNat / 10 ^ (digitCount 9 p.toNat - 1) := (Nat.one_le_div_iff (by positivity)).2 hlo
    have hquot' : p.toNat / 10 ^ (digitCount 9 p.toNat - 1) < 10 := by
      rw [Nat.div_lt_iff_lt_mul (by positivity), ← Nat.pow_succ', Nat.succ_eq_add_one, Nat.sub_add_cancel hpos]
      exact hhi
    omega

section
variable {s : State} (h : Inv s)
include h

theorem inv_b32dec : Inv (b32dec s) := by
  obtain ⟨bytes, -, hlen, hresult⟩ | ⟨c, -, hc, hresult⟩ := b32dec_cases s
  · rw [hresult]
    exact inv_storeKey h bytes hlen
  · rw [hresult]
    exact inv_dropKey h c hc

theorem inv_ctrser : Inv (ctrser s) :=
  inv_succeed { h with status_reserved := (inv_always _).2.2 }

theorem inv_hmac : Inv (hmac s) := by
  unfold hmac
  split
  · exact inv_succeed { h with status_reserved := (inv_always _).2.2 }
  · exact inv_failWith h .noKey (by decide)

theorem inv_dtrunc : Inv (dtrunc s) :=
  inv_succeed { h with p_lt := (inv_always _).1, status_reserved := (inv_always _).2.2 }

theorem inv_decfmt : Inv (decfmt s) := by
  have hlen := decfmt_outlen_toNat s
  have hbounds := outputLength_bounds s.p
  refine inv_succeed
    { h with
      outlen_legal := .inr (hlen ▸ hbounds)
      out_tail := fun i hi => decfmt_out_tail (hlen ▸ hi)
      out_digits := fun i hi => ?digits
      no_leading_zero := fun hi => ?leading
      status_reserved := (inv_always _).2.2 }
  case digits =>
    have hdigit := decfmt_out_digit (s := s) (i := i) (hlen ▸ hi)
    rw [decfmt_out] at hdigit
    rw [storeOutput_out, hdigit]
    omega
  case leading =>
    have hdigit := decfmt_out_digit (s := s) (i := 0) (by simp; omega)
    intro hzero
    rw [show (decfmt s).out[(0 : Fin 10)] = 0x30#8 from hzero] at hdigit
    have hne := leading_digit_ne_zero (p := s.p) (hlen ▸ hi)
    simp at hdigit
    omega

theorem inv_hotp : Inv (hotp s) := by
  obtain ⟨key, -, hlen, hresult⟩ | ⟨c, -, hc, hresult⟩ := hotp_cases s
  · rw [hresult]
    exact inv_decfmt (inv_dtrunc (inv_hmac (inv_ctrser (inv_storeKey h key hlen))))
  · rw [hresult]
    exact inv_storeOutput_nil (inv_dropKey h c hc)

theorem inv_effect (i : Instr) : Inv (effect i s) := by
  cases i with
  | b32dec => exact inv_b32dec h
  | ctrser => exact inv_ctrser h
  | hmac => exact inv_hmac h
  | dtrunc => exact inv_dtrunc h
  | decfmt => exact inv_decfmt h
  | hotp => exact inv_hotp h
  | clr => exact inv_clearBlock s

end

/-! ### Every step keeps the invariant -/

section
variable {s t : State} (h : Inv s)
include h

theorem exec_keeps_inv {i : Instr} (hexec : exec i s = .next t) : Inv t := by
  obtain rfl : effect i s = t := Host.Outcome.next.inj ((exec_eq_effect i s).symm.trans hexec)
  exact inv_effect h i

theorem runCommand_keeps_inv {w : Word} (hrun : runCommand w s = .next t) : Inv t := by
  obtain ⟨i, -, hexec⟩ | ⟨-, hillegal⟩ := runCommand_cases w s
  · exact exec_keeps_inv h (hexec.symm.trans hrun)
  · obtain rfl : illegalCommand s = t := Host.Outcome.next.inj (hillegal.symm.trans hrun)
    exact inv_failWith h .badCmd (by decide)

theorem transact_keeps_inv {x : Transaction} (hx : transact x s = .next t) : Inv t := by
  obtain e | ⟨r, e⟩ | ⟨a, v, r, -, -, -, hw, e⟩ | ⟨a, v, -, -, e⟩ := transact_cases x s
  · obtain rfl := Host.Outcome.next.inj (e.symm.trans hx)
    exact inv_respond h .error
  · obtain rfl := Host.Outcome.next.inj (e.symm.trans hx)
    exact inv_respond h (.data (readReg s r))
  · obtain rfl := Host.Outcome.next.inj (e.symm.trans hx)
    exact inv_storeReg (inv_respond h .ok) r v hw
  · exact runCommand_keeps_inv (inv_respond h .ok) (e.symm.trans hx)

theorem step_keeps_inv (hstep : step s = .next t) : Inv t := by
  match hpending : s.pending with
  | [] =>
    obtain rfl := Host.Outcome.next.inj ((step_idle hpending).symm.trans hstep)
    exact h
  | .transact x :: rest => exact transact_keeps_inv (inv_pending h rest) ((step_transact hpending).symm.trans hstep)
  | .reset _ :: rest =>
    obtain rfl := Host.Outcome.next.inj ((step_reset hpending).symm.trans hstep)
    exact inv_respond (inv_clearBlock _) .none

end

/-- Settles O50: each command keeps the invariant, and a step is idle, a transaction or a reset. -/
theorem everyStepKeepsInvariant : Obligations.EveryStepKeepsInvariant :=
  ⟨fun _ _ _ h => exec_keeps_inv h, fun _ _ h => step_keeps_inv h⟩

/-! ### What changes `KEYV` (R23) -/

/-- A command word that changes `KEYV` is that of a decoding command or of `CLR`. -/
theorem runCommand_keyv {w : Word} {s t : State} (hrun : runCommand w s = .next t) (hkeyv : t.keyv ≠ s.keyv) :
    ∃ i ∈ [Instr.b32dec, .hotp, .clr], w = encode i := by
  obtain ⟨i, hdecode, hexec⟩ | ⟨-, hillegal⟩ := runCommand_cases w s
  · refine ⟨i, ?_, eq_encode_of_decode_ok hdecode⟩
    obtain rfl : effect i s = t := Host.Outcome.next.inj ((exec_eq_effect i s).symm.trans (hexec.symm.trans hrun))
    by_contra hother
    exact hkeyv (effect_key s hother).2.2
  · obtain rfl : illegalCommand s = t := Host.Outcome.next.inj (hillegal.symm.trans hrun)
    exact absurd (illegalCommand_keyv s) hkeyv

/-- A transaction that changes `KEYV` is a write of such a word to `CMD`. -/
theorem transact_keyv {x : Transaction} {s t : State} (hx : transact x s = .next t) (hkeyv : t.keyv ≠ s.keyv) :
    ∃ i ∈ [Instr.b32dec, .hotp, .clr], x = .regWrite 4 0x004#12 (encode i) := by
  obtain e | ⟨r, e⟩ | ⟨a, v, r, -, -, -, -, e⟩ | ⟨a, v, rfl, ha, e⟩ := transact_cases x s
  · obtain rfl := Host.Outcome.next.inj (e.symm.trans hx)
    exact absurd rfl hkeyv
  · obtain rfl := Host.Outcome.next.inj (e.symm.trans hx)
    exact absurd rfl hkeyv
  · obtain rfl := Host.Outcome.next.inj (e.symm.trans hx)
    exact absurd (storeReg_frame r v (respond .ok s)).1 hkeyv
  · obtain ⟨i, hi, rfl⟩ := runCommand_keyv (e.symm.trans hx) hkeyv
    exact ⟨i, hi, congrArg (Transaction.regWrite 4 · (encode i)) (addr_of_regAt ha).symm⟩

/-- Settles O52: the step is no idle one, and its event is a reset or such a transaction. -/
theorem keyvChangedOnlyByDecodeOrClear : Obligations.KeyvChangedOnlyByDecodeOrClear := by
  intro s t hstep hkeyv
  match hpending : s.pending with
  | [] =>
    obtain rfl := Host.Outcome.next.inj ((step_idle hpending).symm.trans hstep)
    exact absurd rfl hkeyv
  | .transact x :: rest =>
    obtain ⟨i, hi, rfl⟩ := transact_keyv ((step_transact hpending).symm.trans hstep) hkeyv
    exact .inl ⟨i, rest, hi, rfl⟩
  | .reset d :: rest => exact .inr ⟨d, rest, rfl⟩

end Sys2Proof.Machine
end

section
/-! PROOFS, Base32: slicing by groups, and the texts that decode (spec 40_base32_decode.md sections 2 and 3). -/

namespace Sys2Proof.Machine

open Sys2Proof.Safety

/-! ### Slicing group by group (R98 to R100, R103) -/

/-- Eight symbols are five whole bytes, so the groups' bytes follow each other. -/
theorem groupDecode_eq_sliceBytes {fuel : Nat} {vs : List (BitVec 5)} (h : vs.length ≤ fuel) :
    groupDecode fuel vs = sliceBytes (symbolsBits vs) := by
  induction fuel generalizing vs with
  | zero =>
    obtain rfl := List.eq_nil_of_length_eq_zero (Nat.le_zero.1 h)
    rfl
  | succ fuel ih =>
    rw [groupDecode, ih (by rw [List.length_drop]; omega)]
    by_cases hlen : 8 ≤ vs.length
    · have hwhole : (symbolsBits (vs.take 8)).length % 8 = 0 := by
        rw [symbolsBits_length, List.length_take, Nat.min_eq_left hlen]
      rw [← sliceBytes_append _ _ hwhole, ← symbolsBits_append, List.take_append_drop]
    · rw [List.take_of_length_le (by omega), List.drop_of_length_le (by omega)]
      exact List.append_nil _

/-- Settles O9: as many groups as symbols are enough, and five bits a symbol make the length. -/
theorem groupwiseDecodingEqualsWhole : Obligations.GroupwiseDecodingEqualsWhole :=
  fun vs => ⟨groupDecode_eq_sliceBytes le_rfl, by rw [sliceBytes_length, symbolsBits_length]⟩

/-! ### The texts that decode: alphabet characters and a valid count of pads behind them (R95 to R98, R102) -/

theorem symbolVals_map_symbolChar (vs : List (BitVec 5)) : symbolVals (vs.map symbolChar) = some vs := by
  induction vs with
  | nil => rfl
  | cons v vs ih => rw [List.map_cons, symbolVals, symbolVal_symbolChar, ih]

section
variable {data : List Byte} (h : ∀ x ∈ data, (symbolVal x).isSome = true)
include h

theorem padChar_notMem : padChar ∉ data :=
  fun hmem => absurd (h padChar hmem) (by decide)

theorem padCountOf_append_pads (c : Nat) : padCountOf (data ++ List.replicate c padChar) = c := by
  rw [padCountOf, List.count_append, List.count_eq_zero_of_not_mem (padChar_notMem h), List.count_replicate_self,
    Nat.zero_add]

theorem stripPads_append_pads (c : Nat) : stripPads (data ++ List.replicate c padChar) = data := by
  have hdata : data.filter (· != padChar) = data :=
    List.filter_eq_self.2 fun x hx => bne_iff_ne.2 fun e => padChar_notMem h (e ▸ hx)
  rw [stripPads, List.filter_append, hdata, List.filter_replicate]
  simp

end

theorem lastArePads_append_pads (data : List Byte) (c : Nat) :
    lastArePads (data ++ List.replicate c padChar) c = true := by
  have hdrop : (data ++ List.replicate c padChar).drop (data.length + c - c) = List.replicate c padChar := by
    rw [Nat.add_sub_cancel, List.drop_left]
  rw [lastArePads, List.length_append, List.length_replicate, hdrop]
  simp

/-- A non-empty text of symbols decodes to the slices of their bits, whatever valid count of pads stands behind it. -/
theorem decodeSecret_append_pads {vs : List (BitVec 5)} {data : List Byte} {c : Nat} (hne : data ≠ [])
    (hvals : symbolVals data = some vs) (hc : c ∈ [6, 4, 3, 1, 0]) :
    decodeSecret (data ++ List.replicate c padChar) = .present (sliceBytes (symbolsBits vs)) := by
  have hsymbols : ∀ x ∈ data, (symbolVal x).isSome = true := (symbolVals_isSome data).1 (by rw [hvals]; rfl)
  have hcount : padCountOf (data ++ List.replicate c padChar) = c := padCountOf_append_pads hsymbols c
  rw [decodeSecret_passed (List.append_ne_nil_of_left_ne_nil hne _) (by rw [hcount]; exact (padCountValid_iff c).2 hc)
    (by rw [hcount]; exact lastArePads_append_pads data c), stripPads_append_pads hsymbols, hvals]

theorem decodeSecret_of_symbols {vs : List (BitVec 5)} {data : List Byte} (hne : data ≠ [])
    (hvals : symbolVals data = some vs) : decodeSecret data = .present (sliceBytes (symbolsBits vs)) := by
  simpa using decodeSecret_append_pads hne hvals (c := 0) (by simp)

/-- Settles O11: with and without the pads, the bytes are the slices of the same symbols' bits. -/
theorem padsDoNotChangeBytes : Obligations.PadsDoNotChangeBytes := by
  intro data c hne hsymbols hc
  obtain ⟨vs, hvals⟩ := Option.isSome_iff_exists.1 ((symbolVals_isSome data).2 hsymbols)
  have hvalid : c ∈ [6, 4, 3, 1, 0] := by
    simp only [List.mem_cons, List.not_mem_nil, or_false] at hc ⊢
    omega
  exact ⟨_, decodeSecret_of_symbols hne hvals, decodeSecret_append_pads hne hvals hvalid⟩

/-- Settles O12: the characters' values are the symbols, five bits each. -/
theorem alphabetTextDecodes : Obligations.AlphabetTextDecodes := by
  intro vs hne
  refine ⟨_, decodeSecret_of_symbols (by simpa using hne) (symbolVals_map_symbolChar vs), ?_⟩
  rw [sliceBytes_length, symbolsBits_length]

/-! ### The standard encoder's text (R106) -/

theorem symbolBits_symbolOfBits (b4 b3 b2 b1 b0 : Bool) :
    symbolBits (symbolOfBits b4 b3 b2 b1 b0) = [b4, b3, b2, b1, b0] := by
  revert b4 b3 b2 b1 b0
  decide

/-- The symbols' bits are the encoded ones, with fewer than five zero bits behind them. -/
theorem symbolsBits_symbolsOfBits (bits : List Bool) :
    ∃ fillBits : List Bool, fillBits.length < 5 ∧ symbolsBits (symbolsOfBits bits) = bits ++ fillBits := by
  induction bits using symbolsOfBits.induct with
  | case1 b4 b3 b2 b1 b0 rest ih =>
    obtain ⟨fillBits, hlen, hbits⟩ := ih
    exact ⟨fillBits, hlen, by simp [symbolsOfBits, symbolsBits, symbolBits_symbolOfBits, hbits]⟩
  | case2 b4 b3 b2 b1 =>
    exact ⟨[false], by simp, by simp [symbolsOfBits, symbolsBits, symbolBits_symbolOfBits]⟩
  | case3 b4 b3 b2 =>
    exact ⟨[false, false], by simp, by simp [symbolsOfBits, symbolsBits, symbolBits_symbolOfBits]⟩
  | case4 b4 b3 =>
    exact ⟨[false, false, false], by simp, by simp [symbolsOfBits, symbolsBits, symbolBits_symbolOfBits]⟩
  | case5 b4 =>
    exact ⟨[false, false, false, false], by simp, by simp [symbolsOfBits, symbolsBits, symbolBits_symbolOfBits]⟩
  | case6 => exact ⟨[], by simp, rfl⟩

theorem symbolsOfBits_length (bits : List Bool) : (symbolsOfBits bits).length = (bits.length + 4) / 5 := by
  obtain ⟨fillBits, hlen, hbits⟩ := symbolsBits_symbolsOfBits bits
  have hfive : 5 * (symbolsOfBits bits).length = bits.length + fillBits.length := by
    rw [← symbolsBits_length, hbits, List.length_append]
  omega

@[simp] theorem bytesBits_length (bytes : List Byte) : (bytesBits bytes).length = 8 * bytes.length := by
  induction bytes with
  | nil => rfl
  | cons b bytes ih => simp [bytesBits, ih]; omega

theorem byteOfBits_bits (b : Byte) : byteOfBits b[7] b[6] b[5] b[4] b[3] b[2] b[1] b[0] = b := by
  revert b
  decide +kernel

theorem sliceBytes_bytesBits (bytes : List Byte) : sliceBytes (bytesBits bytes) = bytes := by
  induction bytes with
  | nil => rfl
  | cons b bytes ih => rw [bytesBits, sliceBytes, byteOfBits_bits, ih]

/-- The fill bits make no byte, so slicing the standard symbols' bits gives the encoded bytes back. -/
theorem sliceBytes_standardSymbols (bytes : List Byte) :
    sliceBytes (symbolsBits (symbolsOfBits (bytesBits bytes))) = bytes := by
  obtain ⟨fillBits, hlen, hbits⟩ := symbolsBits_symbolsOfBits (bytesBits bytes)
  have hnone : sliceBytes fillBits = [] :=
    List.eq_nil_of_length_eq_zero (by rw [sliceBytes_length, Nat.div_eq_of_lt (by omega)])
  rw [hbits, sliceBytes_append _ _ (by rw [bytesBits_length]; omega), sliceBytes_bytesBits, hnone, List.append_nil]

theorem standardBase32Unpadded_length (bytes : List Byte) :
    (standardBase32Unpadded bytes).length = (8 * bytes.length + 4) / 5 := by
  rw [standardBase32Unpadded, List.length_map, symbolsOfBits_length, bytesBits_length]

/-- The pads of a standard text are of a valid count: whole bytes leave 0, 2, 4, 5 or 7 symbols in the last group. -/
theorem standardBase32_pads_valid (bytes : List Byte) :
    (8 - (standardBase32Unpadded bytes).length % 8) % 8 ∈ [6, 4, 3, 1, 0] := by
  rw [standardBase32Unpadded_length]
  simp only [List.mem_cons, List.not_mem_nil, or_false]
  omega

/-- Settles O10: the padded and the unpadded text hold the same symbols, whose bits are sliced back to the bytes. -/
theorem standardBase32RoundTrip : Obligations.StandardBase32RoundTrip := by
  intro bytes hne
  have hpos : 0 < bytes.length := List.length_pos_iff.2 hne
  have htext : standardBase32Unpadded bytes ≠ [] := by
    rw [← List.length_pos_iff, standardBase32Unpadded_length]
    omega
  have hvals : symbolVals (standardBase32Unpadded bytes) = some (symbolsOfBits (bytesBits bytes)) :=
    symbolVals_map_symbolChar _
  constructor
  · exact (decodeSecret_append_pads htext hvals (standardBase32_pads_valid bytes)).trans
      (congrArg _ (sliceBytes_standardSymbols bytes))
  · exact (decodeSecret_of_symbols htext hvals).trans (congrArg _ (sliceBytes_standardSymbols bytes))

end Sys2Proof.Machine
end

section
/-! PROOFS, published digests of SHA-1 and HMAC (spec 41_hmac_sha1.md sections 2 and 4). -/

namespace Sys2Proof.Machine

/-- Settles O19: both messages are one block long, and the kernel evaluates it. -/
theorem sha1ReferenceDigests : Obligations.Sha1ReferenceDigests := by
  unfold Obligations.Sha1ReferenceDigests
  decide +kernel

/-- Settles O24: each of the two nested hashes is over two blocks, and the kernel evaluates them. -/
theorem hmacPublishedExample : Obligations.HmacPublishedExample := by
  unfold Obligations.HmacPublishedExample
  decide +kernel

end Sys2Proof.Machine
end

section
/-! PROOFS, formatting: the bits truncation ignores, the number an output denotes and its length (spec
42_truncate_format.md). -/

namespace Sys2Proof.Machine

open Sys2Proof.Safety

/-! ### Truncation (R141) -/

/-- Flipping the top bit of a byte leaves the other seven. -/
theorem xor_topBit_mod (b : Byte) : (b ^^^ 0x80#8).toNat % 128 = b.toNat % 128 := by
  revert b
  decide +kernel

/-- The masked window has no place for the top bit of its first byte. -/
theorem be32_topBit_mod (b0 b1 b2 b3 : Byte) :
    (be32 (b0 ^^^ 0x80#8) b1 b2 b3).toNat % 2 ^ 31 = (be32 b0 b1 b2 b3).toNat % 2 ^ 31 := by
  have htop := xor_topBit_mod b0
  rw [be32_toNat, be32_toNat]
  omega

theorem truncOffset_set (d : Vector Byte 20) (o : Fin 16) (b : Byte) : truncOffset (d.set o.val b) = truncOffset d := by
  have hlast : (d.set o.val b)[19] = d[19] := Vector.getElem_set_ne (by omega) (by omega) (by omega)
  exact Fin.ext (by rw [truncOffset_val, truncOffset_val, hlast])

theorem digestWindow_set (d : Vector Byte 20) (o : Fin 16) (b : Byte) :
    digestWindow (d.set o.val b) o = be32 b d[o.val + 1] d[o.val + 2] d[o.val + 3] := by
  simp [digestWindow]

theorem truncated_set_topBit {d : Vector Byte 20} {o : Fin 16} (ho : o.val = d[19].toNat % 16) :
    truncated (d.set o.val (d[o.val] ^^^ 0x80#8)) = truncated d := by
  obtain rfl : o = truncOffset d := Fin.ext (ho.trans (truncOffset_val d).symm)
  apply BitVec.eq_of_toNat_eq
  rw [truncated_toNat, truncated_toNat, truncOffset_set, digestWindow_set, be32_topBit_mod]
  rfl

/-- The digest that begins with the bytes of `p` and selects them. -/
def digestOfValue (p : BitVec 31) : Vector Byte 20 := fill 20 (beBytes 4 p.toNat)

theorem truncOffset_digestOfValue (p : BitVec 31) : truncOffset (digestOfValue p) = 0 := by
  apply Fin.ext
  rw [truncOffset_val, digestOfValue, fill_getElem 20 _ 19 (by omega)]
  rfl

theorem truncated_digestOfValue (p : BitVec 31) : truncated (digestOfValue p) = p := by
  have hp : p.toNat < 2 ^ 31 := p.isLt
  apply BitVec.eq_of_toNat_eq
  rw [truncated_toNat, truncOffset_digestOfValue, digestWindow_toNat, digestOfValue, fill_toList]
  simp [beBytes]
  omega

/-- Settles O26: the window's bytes and its offset are all that `truncated` reads, and the mask drops the top bit. -/
theorem dtruncIgnoredBits : Obligations.DtruncIgnoredBits := by
  refine ⟨fun d => ?_, fun _ _ _ => truncated_congr, fun _ _ => truncated_set_topBit,
    fun p => ⟨digestOfValue p, truncated_digestOfValue p⟩⟩
  omega

/-! ### The number an output denotes (R143) -/

theorem foldl_decimal (text : List Byte) (n : Nat) :
    text.foldl (fun n c => 10 * n + (c.toNat - 0x30)) n = n * 10 ^ text.length + decimalValue text := by
  induction text generalizing n with
  | nil => simp [decimalValue]
  | cons c cs ih =>
    rw [decimalValue, List.foldl_cons, List.foldl_cons, ih, ih (10 * 0 + _), List.length_cons, Nat.pow_succ]
    ring

theorem decimalValue_append (a b : List Byte) :
    decimalValue (a ++ b) = decimalValue a * 10 ^ b.length + decimalValue b := by
  rw [decimalValue, List.foldl_append, foldl_decimal b]
  rfl

/-- A string of digits denotes a number of at most that many digits. -/
theorem decimalValue_lt {text : List Byte} (h : ∀ c ∈ text, 0x30 ≤ c.toNat ∧ c.toNat ≤ 0x39) :
    decimalValue text < 10 ^ text.length := by
  induction text using List.reverseRecOn with
  | nil => simp [decimalValue]
  | append_singleton text c ih =>
    have hrest := ih fun x hx => h x (by simp [hx])
    obtain ⟨-, hhi⟩ := h c (by simp)
    rw [decimalValue_append, List.length_append, List.length_singleton, Nat.pow_succ]
    simp only [decimalValue, List.foldl_cons, List.foldl_nil] at hrest ⊢
    omega

/-- The first `k` digits of an output denote the number without its last `len - k` digits. -/
theorem decimalValue_digits {n len k : Nat} (hn : n < 10 ^ len) (hk : k ≤ len) :
    decimalValue ((List.range k).map (digitChar n len)) = n / 10 ^ (len - k) := by
  induction k with
  | zero => simp [decimalValue, Nat.div_eq_of_lt hn]
  | succ k ih =>
    have hlast : decimalValue [digitChar n len k] = n / 10 ^ (len - 1 - k) % 10 := by
      simp [decimalValue, digitChar_toNat]
    have hquot : n / 10 ^ (len - k) = n / 10 ^ (len - 1 - k) / 10 := by
      rw [Nat.div_div_eq_div_mul, ← Nat.pow_succ]
      congr 2
      omega
    rw [List.range_succ, List.map_append, decimalValue_append, ih (by omega), List.map_singleton, hlast, hquot,
      List.length_singleton, Nat.sub_right_comm, ← Nat.sub_add_eq]
    omega

theorem decimalValue_decimalString (p : BitVec 31) : decimalValue (decimalString p.toNat) = p.toNat := by
  rw [decimalString, decimalValue_digits (lt_pow_outputLength p) le_rfl, Nat.sub_self, Nat.pow_zero, Nat.div_one]

/-- The last `k` digits of a string denote its number modulo `10 ^ k`. -/
theorem decimalValue_drop {text : List Byte} (h : ∀ c ∈ text, 0x30 ≤ c.toNat ∧ c.toNat ≤ 0x39) {k : Nat}
    (hk : k ≤ text.length) : decimalValue (text.drop (text.length - k)) = decimalValue text % 10 ^ k := by
  have hlen : (text.drop (text.length - k)).length = k := by rw [List.length_drop]; omega
  have hlt : decimalValue (text.drop (text.length - k)) < 10 ^ k := by
    have hdigits := decimalValue_lt (text := text.drop (text.length - k)) fun c hc => h c (List.mem_of_mem_drop hc)
    rwa [hlen] at hdigits
  have hsplit := decimalValue_append (text.take (text.length - k)) (text.drop (text.length - k))
  rw [List.take_append_drop, hlen] at hsplit
  rw [hsplit, Nat.mul_add_mod', Nat.mod_eq_of_lt hlt]

/-- Settles O28: the output is the decimal string, whose digits denote `P` and whose last six `P mod 10^6`. -/
theorem decfmtNoModulo : Obligations.DecfmtNoModulo := by
  intro s
  have htext : (decfmt s).out.toList.take (decfmt s).outlen.toNat = decimalString s.p.toNat := decfmt_outText s
  have hlen : (decfmt s).outlen.toNat = (decimalString s.p.toNat).length := by
    rw [decfmt_outlen_toNat, decimalString_length]
  have hsix : 6 ≤ (decimalString s.p.toNat).length := by
    rw [decimalString_length]
    exact (outputLength_bounds s.p).1
  refine ⟨decfmt s, exec_decfmt s, ?number, ?lastSix⟩
  case number => rw [htext, decimalValue_decimalString]
  case lastSix => rw [htext, hlen, decimalValue_drop (decimalString_digit _) hsix, decimalValue_decimalString]

/-! ### The length of an output by range of `P` (R144, R145) -/

/-- A number of `k` digits has digit count `k`. -/
theorem digitCount_eq {n k : Nat} (hn : n < 10 ^ 10) (hk : 1 ≤ k) (hlo : 10 ^ (k - 1) ≤ n) (hhi : n < 10 ^ k) :
    digitCount 9 n = k := by
  have hne : n ≠ 0 := Nat.ne_of_gt (Nat.lt_of_lt_of_le (by positivity) hlo)
  obtain ⟨hlt, hpos, -, hleading, -⟩ := digitCount_spec 9 n hn
  have hle : k - 1 < digitCount 9 n := (Nat.pow_lt_pow_iff_right (by omega)).1 (hlo.trans_lt hlt)
  have hge : digitCount 9 n - 1 < k := (Nat.pow_lt_pow_iff_right (by omega)).1 ((hleading hne).trans_lt hhi)
  omega

section
variable {s : State}

/-- From seven digits on the output is as long as the number. -/
theorem decfmt_outlen_of_range {k : Nat} (hk : 7 ≤ k) (hlo : 10 ^ (k - 1) ≤ s.p.toNat) (hhi : s.p.toNat < 10 ^ k) :
    (decfmt s).outlen = BitVec.ofNat 4 k := by
  have hcount : digitCount 9 s.p.toNat = k := digitCount_eq (by omega) (by omega) hlo hhi
  rw [decfmt_outlen, decimalString_length, outputLength, hcount, config_digits, Nat.max_eq_right (by omega)]

/-- Up to six digits the output is six characters long. -/
theorem decfmt_outlen_of_short (h : s.p.toNat < 10 ^ 6) : (decfmt s).outlen = 6#4 := by
  obtain ⟨hdigits, -, -⟩ := digitCount_bitVec s.p
  have hcount : digitCount 9 s.p.toNat ≤ 6 := by
    obtain ⟨-, hone⟩ | ⟨-, hlo, -⟩ := hdigits
    · omega
    · have hlt : digitCount 9 s.p.toNat - 1 < 6 := (Nat.pow_lt_pow_iff_right (by omega)).1 (hlo.trans_lt h)
      omega
  rw [decfmt_outlen, decimalString_length, outputLength, config_digits, Nat.max_eq_left hcount]

end

/-- Settles O29: each range of `P` is that of its number of digits. -/
theorem outputLengthByRange : Obligations.OutputLengthByRange := by
  intro s
  have hp : s.p.toNat < 2 ^ 31 := s.p.isLt
  exact ⟨decfmt s, exec_decfmt s, fun hhi => decfmt_outlen_of_short (by omega),
    fun hlo hhi => decfmt_outlen_of_range (k := 7) (by omega) hlo (by omega),
    fun hlo hhi => decfmt_outlen_of_range (k := 8) (by omega) hlo (by omega),
    fun hlo hhi => decfmt_outlen_of_range (k := 9) (by omega) hlo (by omega),
    fun hlo => decfmt_outlen_of_range (k := 10) (by omega) hlo (by omega)⟩

/-- Settles O30: four values, evaluated. -/
theorem decfmtCornerCases : Obligations.DecfmtCornerCases := by
  unfold Obligations.DecfmtCornerCases
  decide +kernel

end Sys2Proof.Machine
end

section
/-! PROOFS, sequencer: `HOTP` against the unit commands, and each command on the reset state (spec
43_otp_sequence.md, 70_reset_and_hazards.md). -/

namespace Sys2Proof.Machine

open Sys2Proof.Safety

/-! ### `HOTP` and the unit commands (R161, R162) -/

theorem runCommands_unit (s : State) :
    runCommands [.b32dec, .ctrser, .hmac, .dtrunc, .decfmt] s =
      .next (decfmt (dtrunc (hmac (ctrser (b32dec s))))) := rfl

theorem hotp_of_keyv {s : State} (h : (b32dec s).keyv = true) :
    hotp s = decfmt (dtrunc (hmac (ctrser (b32dec s)))) := if_pos h

theorem hotp_of_no_keyv {s : State} (h : (b32dec s).keyv = false) : hotp s = storeOutput [] (b32dec s) :=
  if_neg (by simp [h])

/-- Settles O32: the two branches of `HOTP`, by the `KEYV` its decode leaves. -/
theorem hotpEqualsUnitCommands : Obligations.HotpEqualsUnitCommands := by
  refine fun s => ⟨b32dec s, exec_b32dec s, fun hkeyv => ⟨hotp s, exec_hotp s, ?units⟩, fun hkeyv => ?empty⟩
  case units => rw [runCommands_unit, hotp_of_keyv hkeyv]
  case empty =>
    rw [exec_hotp, hotp_of_no_keyv hkeyv, storeOutput, fill_nil]
    rfl

/-- Settles O33: with a key the output has six to ten characters, without one it is empty. -/
theorem hotpEmptyExactlyOnFailure : Obligations.HotpEmptyExactlyOnFailure := by
  intro s
  obtain ⟨key, hdecode, -, -⟩ | ⟨c, -, -, hresult⟩ := hotp_cases s
  · have hbounds := hotp_outlen_bounds hdecode
    have hne : (hotp s).outlen ≠ 0#4 := fun hzero => by simp [hzero] at hbounds
    have hkeyv : (hotp s).keyv = true := by rw [hotp_present hdecode]
    exact ⟨hotp s, exec_hotp s, by simp [hkeyv, hne], fun _ => hbounds, hotp_frame_of_no_key⟩
  · have hzero : (hotp s).outlen = 0#4 := by rw [hresult]; rfl
    have hkeyv : (hotp s).keyv = false := by rw [hresult]; rfl
    exact ⟨hotp s, exec_hotp s, by simp [hkeyv, hzero], fun hne => absurd hzero hne, hotp_frame_of_no_key⟩

/-! ### The commands on the reset state (R211) -/

theorem decodeSecret_reset : decodeSecret (secText State.reset) = .absent .empty := by
  rw [(secText_eq_nil_iff State.reset).2 reset_seclen]
  rfl

theorem counterMessage_zero : counterMessage 0#32 = Vector.replicate 8 0#8 := by decide

theorem truncated_zero : truncated (Vector.replicate 20 0#8) = 0#31 := by decide +kernel

theorem fill_decimalString_zero :
    fill 10 (decimalString 0) = #v[0x30#8, 0x30#8, 0x30#8, 0x30#8, 0x30#8, 0x30#8, 0#8, 0#8, 0#8, 0#8] := by
  rw [decfmtCornerCases.1]
  rfl

theorem decfmt_reset : decfmt State.reset =
    { State.reset with
      out := #v[0x30#8, 0x30#8, 0x30#8, 0x30#8, 0x30#8, 0x30#8, 0#8, 0#8, 0#8, 0#8], outlen := 6#4 } := by
  have hout : fill 10 (decimalString State.reset.p.toNat) = _ := fill_decimalString_zero
  rw [decfmt, storeOutput, hout]
  rfl

/-- Settles O48: the text is empty, there is no key, and the message, the truncated value and the block of the zero
registers are zero again. -/
theorem commandsOnResetState : Obligations.CommandsOnResetState := by
  refine ⟨exec_b32dec_absent decodeSecret_reset, ?ctrser, rfl, ?dtrunc, ?decfmt, exec_hotp_absent decodeSecret_reset,
    rfl⟩
  case ctrser =>
    rw [exec_ctrser, ctrser, reset_ctr, counterMessage_zero]
    rfl
  case dtrunc =>
    rw [exec_dtrunc, dtrunc, reset_digest, truncated_zero]
    rfl
  case decfmt => rw [exec_decfmt, decfmt_reset]

end Sys2Proof.Machine
end

section
/-! PROOFS, register interface: the address map, reading back what was written, and what no data transaction changes
(spec 20_memory.md). -/

namespace Sys2Proof.Machine

open Sys2Proof.Safety

/-- Settles O41: the address map inverts `Reg.addr`, and what it misses is misaligned or reserved. -/
theorem addressMapOneToOne : Obligations.AddressMapOneToOne :=
  ⟨fun _ r => ⟨fun h => (addr_of_regAt h).symm, fun h => h ▸ regAt_addr r⟩, regAt_eq_none_iff⟩

/-! ### Reading back (R53, R59) -/

/-- Storing the low `n` bits of a word and reading them zero-extended masks the word. -/
theorem setWidth_setWidth_eq_and (n : Nat) (v : Word) :
    (v.setWidth n).setWidth 32 = v &&& (BitVec.allOnes n).setWidth 32 := by
  ext i hi
  simp only [BitVec.getElem_and, BitVec.getElem_setWidth, BitVec.getLsbD_setWidth, BitVec.getLsbD_allOnes,
    BitVec.getLsbD_eq_getElem hi]
  exact Bool.and_comm _ _

theorem readReg_storeReg_same {r : Reg} (v : Word) (s : State) (hw : r.writable = true) (hcmd : r ≠ .cmd) :
    readReg (storeReg r v s) r = v &&& validBits r := by
  have hbyte : (v.setWidth 8).setWidth 32 = v &&& 0x000000FF#32 := setWidth_setWidth_eq_and 8 v
  cases r with
  | ctr => exact BitVec.and_allOnes.symm
  | seclen => exact setWidth_setWidth_eq_and 9 v
  | p => exact setWidth_setWidth_eq_and 31 v
  | msg i => simpa [readReg, storeReg, validBits] using hbyte
  | digest i => simpa [readReg, storeReg, validBits] using hbyte
  | sec i => simpa [readReg, storeReg, validBits] using hbyte
  | cmd => exact absurd rfl hcmd
  | _ => cases hw

/-- An element of a buffer keeps its value when another one is written. -/
theorem getElem_set_of_ne {n : Nat} (buf : Vector Byte n) {i j : Fin n} (b : Byte) (h : j ≠ i) :
    (buf.set i b)[j] = buf[j] :=
  Vector.getElem_set_ne i.isLt j.isLt fun e => h (Fin.ext e.symm)

theorem readReg_storeReg_of_ne {r r' : Reg} (v : Word) (s : State) (h : r' ≠ r) :
    readReg (storeReg r v s) r' = readReg s r' := by
  cases r with
  | ctr =>
    cases r' with
    | ctr => exact absurd rfl h
    | _ => rfl
  | seclen =>
    cases r' with
    | seclen => exact absurd rfl h
    | _ => rfl
  | p =>
    cases r' with
    | p => exact absurd rfl h
    | _ => rfl
  | msg i =>
    cases r' with
    | msg j => exact congrArg (BitVec.setWidth 32) (getElem_set_of_ne s.msg _ fun e => h (congrArg Reg.msg e))
    | _ => rfl
  | digest i =>
    cases r' with
    | digest j => exact congrArg (BitVec.setWidth 32) (getElem_set_of_ne s.digest _ fun e => h (congrArg Reg.digest e))
    | _ => rfl
  | sec i =>
    cases r' with
    | sec j => exact congrArg (BitVec.setWidth 32) (getElem_set_of_ne s.sec _ fun e => h (congrArg Reg.sec e))
    | _ => rfl
  | _ => rfl

/-- Settles O42: the write is not refused, so it stores, and the read is of what the register then holds. -/
theorem readAfterWrite : Obligations.ReadAfterWrite := by
  intro s r v hw hcmd hseclen
  refine ⟨storeReg r v s, writeGives_addr r v s hcmd ((writeRefused_eq_false r v).2 ⟨hw, hseclen⟩), ?_,
    fun r' hne => readReg_storeReg_of_ne v s hne⟩
  rw [← readReg_storeReg_same v s hw hcmd]
  exact readGives_addr r _

/-! ### Idempotence (R58) -/

theorem secText_hotp (s : State) : secText (hotp s) = secText s := by
  rw [secText, secText, hotp_sec, hotp_seclen]

theorem hotp_hotp (s : State) : hotp (hotp s) = hotp s := by
  cases hdecode : decodeSecret (secText s) with
  | present key =>
    rw [hotp_present ((secText_hotp s).symm ▸ hdecode), hotp_present hdecode]
  | absent c =>
    rw [hotp_absent ((secText_hotp s).symm ▸ hdecode), hotp_absent hdecode]
    rfl

section
variable {s : State}

theorem b32dec_present {key : List Byte} (h : decodeSecret (secText s) = .present key) :
    b32dec s = storeKey key s := by
  rw [b32dec, h]

theorem b32dec_absent {c : Cause} (h : decodeSecret (secText s) = .absent c) : b32dec s = dropKey c s := by
  rw [b32dec, h]

end

theorem secText_b32dec (s : State) : secText (b32dec s) = secText s := by
  rw [secText, secText, b32dec_sec, b32dec_seclen]

theorem b32dec_b32dec (s : State) : b32dec (b32dec s) = b32dec s := by
  cases hdecode : decodeSecret (secText s) with
  | present key =>
    rw [b32dec_present ((secText_b32dec s).symm ▸ hdecode), b32dec_present hdecode]
    rfl
  | absent c =>
    rw [b32dec_absent ((secText_b32dec s).symm ▸ hdecode), b32dec_absent hdecode]
    rfl

theorem hmac_hmac (s : State) : hmac (hmac s) = hmac s := by
  cases hkeyv : s.keyv with
  | true => simp [hmac, hkeyv]; rfl
  | false => simp [hmac, hkeyv]; rfl

theorem effect_effect (i : Instr) (s : State) : effect i (effect i s) = effect i s := by
  cases i with
  | b32dec => exact b32dec_b32dec s
  | hmac => exact hmac_hmac s
  | hotp => exact hotp_hotp s
  | _ => rfl

/-- Settles O44: an illegal word fails twice alike, and no command changes what it reads. -/
theorem commandWriteIdempotent : Obligations.CommandWriteIdempotent := by
  intro w s
  obtain ⟨i, hdecode, -⟩ | ⟨hnone, -⟩ := runCommand_cases w s
  · have hrun : ∀ s, runCommand w s = .next (effect i s) :=
      fun s => (runCommand_of_decode_ok hdecode s).trans (exec_eq_effect i s)
    exact ⟨effect i s, hrun s, by rw [hrun, effect_effect]⟩
  · exact ⟨illegalCommand s, runCommand_of_decode_ne_ok hnone s, runCommand_of_decode_ne_ok hnone _⟩

/-! ### Transactions other than a command (R214) -/

/-- Settles O45: such a transaction ends in an error, a read or a store, and each keeps the results. -/
theorem dataTransactionsKeepResults : Obligations.DataTransactionsKeepResults := by
  intro s x hx
  rw [step_withNext]
  obtain e | ⟨r, e⟩ | ⟨a, v, r, -, -, -, -, e⟩ | ⟨a, v, rfl, ha, -⟩ := transact_cases x s
  · exact ⟨_, e, rfl, rfl, rfl, rfl, rfl, rfl, rfl⟩
  · exact ⟨_, e, rfl, rfl, rfl, rfl, rfl, rfl, rfl⟩
  · obtain ⟨hkeyv, -, -, hkeylen, hkey, houtlen, hout, hpending, -⟩ := storeReg_frame r v (respond .ok s)
    exact ⟨_, e, statusWord_storeReg r v _, hkeyv, hkeylen, hkey, hout, houtlen, hpending⟩
  · exact absurd (congrArg (Transaction.regWrite 4 · v) (addr_of_regAt ha).symm) (hx v)

end Sys2Proof.Machine
end

section
/-! PROOFS, scripts: which scripts run, what each pseudo-instruction expands to, and the document's public operations
from end to end (spec 30_encoding.md section 4, 43_otp_sequence.md section 3). -/

namespace Sys2Proof.Machine

open Sys2Proof.Safety

/-! ### `GETTOTP` (R164) -/

theorem totpCounter_fits {t : Nat} (h : t / 30 < 2 ^ 32) : totpCounter t = some (BitVec.ofNat 32 (t / 30)) := if_pos h

theorem totpCounter_congr {t t' : Nat} (h : t / 30 = t' / 30) : totpCounter t = totpCounter t' := by
  rw [totpCounter, totpCounter, config_timeStep, h]

theorem expand_gettotp (text : List Byte) (t : Nat) :
    (Line.gettotp text t).expand = (totpCounter t).bind (gethotpLines text) := rfl

theorem expand_gettotp_fits (text : List Byte) {t : Nat} (h : t / 30 < 2 ^ 32) :
    (Line.gettotp text t).expand = (Line.gethotp text (BitVec.ofNat 32 (t / 30))).expand := by
  rw [expand_gettotp, totpCounter_fits h]
  rfl

/-- Settles O37: the expansion depends on the time through its counter alone. -/
theorem totpSameWindowSameLines : Obligations.TotpSameWindowSameLines := by
  refine fun text t => ⟨expand_gettotp_fits text, fun h => ?tooLarge, fun t' h => ?sameWindow⟩
  case tooLarge => exact (expand_eq_none _).2 (.inr ⟨text, t, rfl, h⟩)
  case sameWindow => rw [expand_gettotp, expand_gettotp, totpCounter_congr h]

/-! ### Which scripts run, and in which order (R76, R78) -/

theorem runScript_eq_none (lines : List Line) (s : State) :
    runScript lines s = none ↔ ∃ l ∈ lines, l.expand = none := by
  rw [runScript, Option.map_eq_none_iff, expandScript_eq_none]

theorem runScript_of_expandScript {lines : List Line} {base : List BaseLine} (h : expandScript lines = some base)
    (s : State) : runScript lines s = some (runBaseLines base (s, [])) := by
  rw [runScript, h]
  rfl

theorem expandScript_cons {l : Line} {ls : List Line} {a b : List BaseLine} (ha : l.expand = some a)
    (hb : expandScript ls = some b) : expandScript (l :: ls) = some (a ++ b) := by
  rw [expandScript, ha, hb]

theorem exists_of_expandScript_cons {l : Line} {ls : List Line} {c : List BaseLine}
    (h : expandScript (l :: ls) = some c) :
    ∃ a b, l.expand = some a ∧ expandScript ls = some b ∧ c = a ++ b := by
  rw [expandScript] at h
  split at h
  case h_1 a b ha hb => exact ⟨a, b, ha, hb, (Option.some.inj h).symm⟩
  case h_2 => cases h

/-- A script runs its first line, then the rest from the state that leaves. -/
theorem runScript_cons {l : Line} {ls : List Line} {s : State} (h : runScript (l :: ls) s ≠ none) :
    ∃ (t u : State) (log log' : List Response), runScript [l] s = some (.next (t, log)) ∧
      runScript ls t = some (.next (u, log')) ∧ runScript (l :: ls) s = some (.next (u, log ++ log')) := by
  rw [ne_eq, runScript_eq_none, ← expandScript_eq_none] at h
  obtain ⟨c, hc⟩ := Option.ne_none_iff_exists'.1 h
  obtain ⟨a, b, ha, hb, rfl⟩ := exists_of_expandScript_cons hc
  obtain ⟨t, log, ht⟩ := runBaseLines_next a s
  obtain ⟨u, log', hu⟩ := runBaseLines_next b t
  refine ⟨t, u, log, log', ?first, ?rest, ?whole⟩
  case first => rw [runScript_single ha, ht, List.nil_append]
  case rest => rw [runScript_of_expandScript hb, hu, List.nil_append]
  case whole =>
    rw [runScript_of_expandScript hc, runBaseLines_append, ht]
    exact congrArg some (hu _)

theorem runBaseLines_singleton (l : BaseLine) (acc : State × List Response) :
    runBaseLines [l] acc = transactAll (l.transactions acc.1) acc := by
  rw [runBaseLines]
  cases transactAll (l.transactions acc.1) acc <;> rfl

/-- A line that is one transaction runs as the step performs it. -/
theorem runScript_transaction {l : Line} {b : BaseLine} {x : Transaction} {s : State} (hl : l.expand = some [b])
    (hb : b.transactions s = [x]) :
    ∃ t, step (withNext x s) = .next t ∧ runScript [l] s = some (.next (t, [t.resp])) := by
  obtain ⟨t, ht⟩ := transact_next x s
  refine ⟨t, (step_withNext x s).trans ht, ?_⟩
  rw [runScript_single hl, runBaseLines_singleton, hb, transactAll, ht]
  rfl

/-- Settles O57: the lines without an expansion are those listed, and a script's lines run in order. -/
theorem scriptsRunIffExpressible : Obligations.ScriptsRunIffExpressible := by
  refine ⟨fun lines s => ?_, fun _ => rfl, fun _ _ _ => runScript_cons, fun _ _ _ => runScript_transaction rfl rfl,
    fun _ _ _ => runScript_transaction rfl rfl⟩
  rw [runScript_eq_none]
  exact exists_congr fun l => and_congr_right fun _ => expand_eq_none l

/-! ### The expansions (R78) -/

theorem runScript_congr {lines lines' : List Line} (h : expandScript lines = expandScript lines') (s : State) :
    runScript lines s = runScript lines' s := by
  rw [runScript, runScript, h]

theorem expandScript_singleton_congr {l l' : Line} (h : l.expand = l'.expand) :
    expandScript [l] = expandScript [l'] := by
  simp only [expandScript, h]

theorem expandScript_single {l : Line} {base : List BaseLine} (h : l.expand = some base) :
    expandScript [l] = some base := by
  rw [expandScript_cons h rfl, List.append_nil]

theorem expandScript_append {as bs : List Line} {a b : List BaseLine} (ha : expandScript as = some a)
    (hb : expandScript bs = some b) : expandScript (as ++ bs) = some (a ++ b) := by
  induction as generalizing a with
  | nil =>
    cases ha
    exact hb
  | cons l ls ih =>
    obtain ⟨x, y, hx, hy, rfl⟩ := exists_of_expandScript_cons ha
    rw [List.cons_append, expandScript_cons hx (ih hy), List.append_assoc]

/-- Lines that are one base line each. -/
theorem expandScript_of_singles {lines : List Line} {base : List BaseLine}
    (h : lines.map Line.expand = base.map fun b => some [b]) : expandScript lines = some base := by
  induction lines generalizing base with
  | nil =>
    obtain rfl : base = [] := by simpa using h.symm
    rfl
  | cons l ls ih =>
    cases base with
    | nil => cases h
    | cons b bs =>
      obtain ⟨hl, hls⟩ := List.cons.inj h
      exact expandScript_cons hl (ih hls)

/-- The written elements are consecutive, one for each value. -/
theorem writeElements_eq_mapIdx (base i : Nat) (vs : List Word) :
    writeElements base i vs = vs.mapIdx fun j v => .wr (elementAddr base (i + j)) v := by
  induction vs generalizing i with
  | nil => rfl
  | cons v vs ih =>
    rw [writeElements, ih, List.mapIdx_cons]
    simp [Nat.add_assoc, Nat.add_comm 1]

/-- `WR` lines to consecutive elements are those of a pseudo-instruction that writes a buffer. -/
theorem expandScript_writes {lines : List Line} {base : Nat} {vs : List Word} (hlen : lines.length = vs.length)
    (h : ∀ (i : Nat) (hi : i < vs.length), lines[i] = .wr (BitVec.ofNat 12 (base + 4 * i)) vs[i]) :
    expandScript lines = some (writeElements base 0 vs) := by
  apply expandScript_of_singles
  rw [writeElements_eq_mapIdx]
  apply List.ext_getElem
  · simp [hlen]
  · intro i hi _
    have hi' : i < vs.length := by simpa [hlen] using hi
    simp [h i hi', Line.expand, elementAddr]

theorem expandScript_bytes {n : Nat} (base : Nat) (b : Vector Word n) :
    expandScript (List.ofFn fun i : Fin n => Line.wr (BitVec.ofNat 12 (base + 4 * i.val)) b[i]) =
      some (writeElements base 0 b.toList) :=
  expandScript_writes (by simp) fun i hi => by simp

theorem expandScript_ldsec {text : List Byte} (h : text.length ≤ 256) :
    expandScript [.ldsec text] = expandScript
      (text.mapIdx (fun i c => Line.wr (BitVec.ofNat 12 (0x400 + 4 * i)) (c.setWidth 32)) ++
        [.wr 0x010#12 (BitVec.ofNat 32 text.length)]) := by
  have hwrites : expandScript
      (text.mapIdx fun i c => Line.wr (BitVec.ofNat 12 (0x400 + 4 * i)) (c.setWidth 32)) =
        some (writeElements 0x400 0 (text.map (·.setWidth 32))) :=
    expandScript_writes (by simp) fun i hi => by simp
  rw [expandScript_single (l := .ldsec text) (ldsecLines_fits h)]
  exact (expandScript_append hwrites (expandScript_single rfl)).symm

/-- Reads of registers, one line each, are the transactions in order. -/
theorem runBaseLines_reads (as : List Addr) (acc : State × List Response) :
    runBaseLines (as.map .rd) acc = transactAll (as.map (.regRead 4)) acc := by
  induction as generalizing acc with
  | nil => rfl
  | cons a as ih =>
    obtain ⟨t, ht⟩ := transact_next (.regRead 4 a) acc.1
    simp [runBaseLines, BaseLine.transactions, transactAll, ht, ih]

theorem expandScript_reads (as : List Addr) : expandScript (as.map (Line.rd · none)) = some (as.map .rd) := by
  apply expandScript_of_singles
  rw [List.map_map, List.map_map]
  rfl

/-- A line that reads a list of addresses runs as one `RD` line for each. -/
theorem runScript_reads {l : Line} {b : BaseLine} {as : List Addr} {s : State} (hl : l.expand = some [b])
    (hb : b.transactions s = as.map (.regRead 4)) : runScript [l] s = runScript (as.map (Line.rd · none)) s := by
  rw [runScript_single hl, runBaseLines_singleton, hb, runScript_of_expandScript (expandScript_reads as),
    runBaseLines_reads]

theorem expandScript_decodesecret (text : List Byte) :
    expandScript [.decodesecret text] = expandScript [.ldsec text, .cmd .b32dec, .rdkey] := by
  cases h : ldsecLines text <;> simp [expandScript, Line.expand, decodesecretLines, h]

theorem expandScript_gethotp (text : List Byte) (counter : Word) :
    expandScript [.gethotp text counter] =
      expandScript [.ldsec text, .wr 0x00C#12 counter, .cmd .hotp, .rdout] := by
  cases h : ldsecLines text <;> simp [expandScript, Line.expand, gethotpLines, h, Reg.addr]

/-- Settles O58: the lists have one expansion, and the reads are the transactions of `RDKEY` and `RDOUT`. -/
theorem pseudoInstructionExpansions : Obligations.PseudoInstructionExpansions := by
  refine fun s => ⟨fun i => runScript_congr rfl s, fun text h => runScript_congr (expandScript_ldsec h) s,
    fun b => runScript_congr ((expandScript_single rfl).trans (expandScript_bytes 0x020 b).symm) s,
    fun b => runScript_congr ((expandScript_single rfl).trans (expandScript_bytes 0x040 b).symm) s, ?rdkey, ?rdout,
    fun text => runScript_congr (expandScript_decodesecret text) s,
    fun text counter => runScript_congr (expandScript_gethotp text counter) s,
    fun text t h => runScript_congr (expandScript_singleton_congr (expand_gettotp_fits text h)) s⟩
  case rdkey =>
    have hreads := runScript_reads (l := .rdkey) (b := .rdkey) (s := s)
      (as := 0x008#12 :: 0x014#12 :: (List.range s.keylen.toNat).map (elementAddr 0x100)) rfl
      (by simp [BaseLine.transactions, readElements, Reg.addr])
    rw [List.map_cons, List.map_cons, List.map_map] at hreads
    exact hreads
  case rdout =>
    have hreads := runScript_reads (l := .rdout) (b := .rdout) (s := s)
      (as := 0x01C#12 :: (List.range s.outlen.toNat).map (elementAddr 0x090)) rfl
      (by simp [BaseLine.transactions, readElements, Reg.addr])
    rw [List.map_cons, List.map_map] at hreads
    exact hreads

end Sys2Proof.Machine
end

section
/-! PROOFS, public operations: what the scripts `GETHOTP` and `DECODESECRET` read back, from end to end (spec
30_encoding.md section 4, 43_otp_sequence.md section 3). -/

namespace Sys2Proof.Machine

open Sys2Proof.Safety

/-! ### `LDSEC`: the text is in `SEC[0..SECLEN)` -/

theorem take_succ_set {n : Nat} (buf : Vector Byte n) (i : Fin n) (c : Byte) :
    (buf.set i c).toList.take (i.val + 1) = buf.toList.take i.val ++ [c] := by
  have hset : (buf.set i c).toList = buf.toList.set i.val c := Vector.toList_set ..
  rw [hset, List.take_add_one, List.take_set_of_le le_rfl, List.getElem?_set_self (by simp)]
  rfl

/-- Writing characters from element `i` on: every write is answered `OK`, and `SEC` holds them behind its first `i`
characters. -/
theorem runBaseLines_writeSec (text : List Byte) {i : Nat} (hfits : i + text.length ≤ 256) (s : State) :
    ∃ t, t.sec.toList.take (i + text.length) = s.sec.toList.take i ++ text ∧
      ∀ ls log, runBaseLines (writeElements 0x400 i (text.map (·.setWidth 32)) ++ ls) (s, log) =
        runBaseLines ls (t, log ++ List.replicate text.length .ok) := by
  induction text generalizing i s with
  | nil => exact ⟨s, by simp, by simp [writeElements]⟩
  | cons c cs ih =>
    rw [List.length_cons] at hfits
    have hi : i < 256 := by omega
    obtain ⟨t, hsec, hrun⟩ := ih (i := i + 1) (by omega) (storeReg (.sec ⟨i, hi⟩) (c.setWidth 32) (respond .ok s))
    refine ⟨t, ?_, fun ls log => ?_⟩
    · have hbyte : (c.setWidth 32).setWidth 8 = c := BitVec.setWidth_setWidth_of_le c (by omega)
      have hset : (storeReg (.sec ⟨i, hi⟩) (c.setWidth 32) (respond .ok s)).sec = s.sec.set i c :=
        congrArg (s.sec.set i ·) hbyte
      rw [List.length_cons, Nat.add_comm cs.length, ← Nat.add_assoc, hsec, hset, take_succ_set s.sec ⟨i, hi⟩,
        List.append_assoc, List.singleton_append]
    · have hwr := runBaseLines_wr (.sec ⟨i, hi⟩) (c.setWidth 32) nofun rfl
        (writeElements 0x400 (i + 1) (cs.map (·.setWidth 32)) ++ ls) s log
      rw [List.map_cons, writeElements, List.length_cons, List.replicate_succ, List.append_cons, ← hrun]
      exact hwr

/-- After the line the input string is the text, and each of its writes is answered `OK`. -/
theorem runBaseLines_ldsec {text : List Byte} (hfits : text.length ≤ 256) (s : State) :
    ∃ base t, ldsecLines text = some base ∧ secText t = text ∧
      ∀ ls log, runBaseLines (base ++ ls) (s, log) =
        runBaseLines ls (t, log ++ List.replicate (text.length + 1) .ok) := by
  obtain ⟨u, hsec, hrun⟩ := runBaseLines_writeSec text (i := 0) (by omega) s
  refine ⟨_, storeReg .seclen (BitVec.ofNat 32 text.length) (respond .ok u), ldsecLines_fits hfits, ?_,
    fun ls log => ?_⟩
  · have hlen : (BitVec.ofNat 32 text.length).setWidth 9 = BitVec.ofNat 9 text.length :=
      BitVec.setWidth_ofNat_of_le (by omega) _
    have hmod : text.length % 2 ^ 9 = text.length := Nat.mod_eq_of_lt (by omega)
    rw [secText, storeReg, hlen, BitVec.toNat_ofNat, hmod]
    simpa using hsec
  · have hword : (BitVec.ofNat 32 text.length).toNat ≤ 256 := by
      rw [BitVec.toNat_ofNat]
      omega
    have hallowed := (writeRefused_eq_false .seclen (BitVec.ofNat 32 text.length)).2 ⟨rfl, fun _ => hword⟩
    rw [List.append_assoc, hrun, List.singleton_append, runBaseLines_wr .seclen _ nofun hallowed, List.append_assoc,
      List.replicate_succ']

/-! ### Reading a buffer -/

@[simp] theorem respond_respond (q q' : Response) (s : State) : respond q (respond q' s) = respond q s := rfl

@[simp] theorem readReg_status (s : State) : readReg s .status = statusWord s := rfl

/-- A read of a register answers its value, then the other transactions follow. -/
theorem transactAll_read_cons (r : Reg) (ts : List Transaction) (s : State) (log : List Response) :
    transactAll (.regRead 4 r.addr :: ts) (s, log) =
      transactAll ts (respond (.data (readReg s r)) s, log ++ [.data (readReg s r)]) := by
  have hread : transact (.regRead 4 r.addr) s = _ := regRead_addr r s
  rw [transactAll, hread]
  rfl

/-- The first `k` elements of a buffer, by index and as a list. -/
theorem range_map_getD {α : Type} {n k : Nat} (buf : Vector Byte n) (f : Byte → α) (hk : k ≤ n) :
    (List.range k).map (fun i => f (buf.toList.getD i 0#8)) = (buf.toList.take k).map f := by
  apply List.ext_getElem
  · simp [hk]
  · intro i hi _
    have hik : i < k := by simpa using hi
    have hin : i < n := by omega
    simp [hin]

/-- Reads of the first `k` elements of a buffer answer their bytes. -/
theorem transactAll_readBuffer {n k base : Nat} (buf : Vector Byte n) (elem : Fin n → Reg) (s : State)
    (log : List Response) (haddr : ∀ i, (elem i).addr = elementAddr base i.val)
    (hread : ∀ i, readReg s (elem i) = buf[i].setWidth 32) (hk : k ≤ n) :
    ∃ t, transactAll (readElements base k) (s, log) =
      .next (t, log ++ (buf.toList.take k).map fun c => .data (c.setWidth 32)) := by
  obtain ⟨t, ht⟩ := transactAll_reads k base (fun i => (buf.toList.getD i 0#8).setWidth 32) s log fun i hi q => by
    have hbyte : buf.toList.getD i 0#8 = buf[i] := toList_getD_eq_getElem buf (by omega)
    rw [← haddr ⟨i, by omega⟩, transact_read, hread, hbyte]
    rfl
  exact ⟨t, ht.trans (by rw [range_map_getD buf (fun c => Response.data (c.setWidth 32)) hk])⟩

/-- `RDOUT` answers the length and the characters of the output string. -/
theorem runBaseLines_rdout (s : State) (log : List Response) (h : s.outlen.toNat ≤ 10) :
    ∃ t, runBaseLines [.rdout] (s, log) = .next (t, log ++
      .data (BitVec.ofNat 32 (outText s).length) :: (outText s).map fun c => .data (c.setWidth 32)) := by
  have hlen : BitVec.ofNat 32 (outText s).length = readReg s .outlen := by
    rw [outText, toList_length_le_take, Nat.min_eq_left h]
    exact BitVec.ofNat_toNat 32 s.outlen
  obtain ⟨t, ht⟩ := transactAll_readBuffer (base := 0x090) s.out .out (respond (.data (readReg s .outlen)) s)
    (log ++ [.data (readReg s .outlen)]) (fun _ => rfl) (fun _ => rfl) h
  refine ⟨t, ?_⟩
  rw [runBaseLines_singleton, BaseLine.transactions, transactAll_read_cons, ht, hlen, outText, List.append_assoc,
    List.singleton_append]

/-- `RDKEY` answers `STATUS`, the key's length and its bytes. -/
theorem runBaseLines_rdkey (s : State) (log : List Response) (h : s.keylen.toNat ≤ 160) :
    ∃ t, runBaseLines [.rdkey] (s, log) = .next (t, log ++ .data (statusWord s) ::
      .data (BitVec.ofNat 32 (keyBytes s).length) :: (keyBytes s).map fun c => .data (c.setWidth 32)) := by
  have hlen : BitVec.ofNat 32 (keyBytes s).length = readReg s .keylen := by
    rw [keyBytes, toList_length_le_take, Nat.min_eq_left h]
    exact BitVec.ofNat_toNat 32 s.keylen
  obtain ⟨t, ht⟩ := transactAll_readBuffer (base := 0x100) s.key .key (respond (.data (readReg s .keylen)) s)
    (log ++ [.data (statusWord s)] ++ [.data (readReg s .keylen)]) (fun _ => rfl) (fun _ => rfl) h
  refine ⟨t, ?_⟩
  rw [runBaseLines_singleton, BaseLine.transactions, transactAll_read_cons, transactAll_read_cons, readReg_respond,
    hlen, keyBytes]
  simpa using ht

/-! ### `GETHOTP` -/

/-- The output of `HOTP` is the function `ComputeOTP` of its operands. -/
theorem outText_hotp (s : State) : outText (hotp s) = computeOtp (secText s) s.ctr := by
  cases hdecode : decodeSecret (secText s) with
  | present key =>
    rw [hotp_outText hdecode, computeOtp, hdecode, hotp_present hdecode]
  | absent c =>
    rw [hotp_absent hdecode, computeOtp, hdecode]
    rfl

theorem hotp_outlen_le (s : State) : (hotp s).outlen.toNat ≤ 10 := by
  obtain ⟨key, hdecode, -, -⟩ | ⟨c, -, -, hresult⟩ := hotp_cases s
  · exact (hotp_outlen_bounds hdecode).2
  · simp [hresult]

/-- Settles O35: after `LDSEC` and the counter's write, `HOTP` computes the string that `RDOUT` reads. -/
theorem gethotpScriptReturnsOtp : Obligations.GethotpScriptReturnsOtp := by
  intro s text counter hfits
  obtain ⟨base, u, hbase, htext, hload⟩ := runBaseLines_ldsec hfits s
  have hexpand : (Line.gethotp text counter).expand =
      some (base ++ [.wr (Reg.addr .ctr) counter, cmdLine .hotp, .rdout]) := congrArg (Option.map _) hbase
  have hotpText : outText (hotp (respond .ok (storeReg .ctr counter (respond .ok u)))) = computeOtp text counter := by
    rw [outText_hotp, ← htext]
    rfl
  obtain ⟨t, ht⟩ := runBaseLines_rdout (hotp (respond .ok (storeReg .ctr counter (respond .ok u))))
    (List.replicate (text.length + 3) .ok) (hotp_outlen_le _)
  refine ⟨t, ?_⟩
  rw [runScript_single hexpand, hload, runBaseLines_wr .ctr counter nofun rfl,
    runBaseLines_command .hotp _ _ (exec_hotp _), ← hotpText, ← ht]
  simp [List.replicate_succ']

/-! ### `DECODESECRET` -/

theorem b32dec_keylen_le (s : State) : (b32dec s).keylen.toNat ≤ 160 := by
  obtain ⟨key, -, hlen, hresult⟩ | ⟨c, -, -, hresult⟩ := b32dec_cases s
  · rw [hresult, storeKey_keylen_toNat hlen]
    exact hlen
  · simp [hresult]

/-- The script reads what `B32DEC` leaves of a state whose input string is the text. -/
theorem runScript_decodesecret {text : List Byte} (hfits : text.length ≤ 256) (s : State) :
    ∃ u t, secText u = text ∧ runScript [.decodesecret text] s = some (.next (t,
      List.replicate (text.length + 2) .ok ++ .data (statusWord (b32dec u)) ::
        .data (BitVec.ofNat 32 (keyBytes (b32dec u)).length) ::
          (keyBytes (b32dec u)).map fun c => .data (c.setWidth 32))) := by
  obtain ⟨base, u, hbase, htext, hload⟩ := runBaseLines_ldsec hfits s
  have hexpand : (Line.decodesecret text).expand = some (base ++ [cmdLine .b32dec, .rdkey]) :=
    congrArg (Option.map _) hbase
  obtain ⟨t, ht⟩ := runBaseLines_rdkey (b32dec (respond .ok u)) (List.replicate (text.length + 2) .ok)
    (b32dec_keylen_le _)
  refine ⟨respond .ok u, t, htext, ?_⟩
  rw [runScript_single hexpand, hload, runBaseLines_command .b32dec _ _ (exec_b32dec _), ← ht, List.nil_append,
    ← List.replicate_succ']

/-- After a successful decode `STATUS` has the key bit alone. -/
theorem statusWord_storeKey (key : List Byte) (s : State) : statusWord (storeKey key s) = 0x00000001#32 := by
  simp [statusWord, Cause.code]

/-- Settles O36: `RDKEY` reads the stored key and the flags of success, or no key and the flags of a failure. -/
theorem decodesecretScriptReturnsKey : Obligations.DecodesecretScriptReturnsKey := by
  intro s text hfits
  obtain ⟨u, t, rfl, hrun⟩ := runScript_decodesecret hfits s
  refine ⟨fun key hdecode => ⟨t, ?present⟩, fun c hdecode => ⟨t, statusWord (dropKey c u), ?clear, ?absent⟩⟩
  case present =>
    rw [hrun, b32dec_present hdecode, keyBytes_storeKey key u (decodeSecret_length_le hdecode), statusWord_storeKey]
  case clear => rw [statusWord_bit0, dropKey_keyv]
  case absent =>
    rw [hrun, b32dec_absent hdecode]
    rfl

end Sys2Proof.Machine
end
